-- ==== Sys2Proof/Word.lean ====
section
/-! DEFINITION. The word types of the CHIP-8 core (10_state.md R30, R34, R36; 30_encoding.md R101). -/

namespace Sys2Proof

/-- An 8-bit value: a V register, a timer, a byte of memory (R30, R43, R44, R53). -/
abbrev Byte := BitVec 8

/-- A 16-bit value: I, PC, a stack entry, an instruction word (R34, R36, R40, R100). -/
abbrev Word := BitVec 16

/-- The 12-bit address field nnn (R101). -/
abbrev Addr12 := BitVec 12

/-- The 4-bit field n (R101). -/
abbrev Nibble := BitVec 4

/-- A register index 0 to 15, naming V0 to VF (R102). -/
abbrev RegIdx := Fin 16

/-- A key index 0 to 15 (R46). -/
abbrev KeyIdx := Fin 16

/-- VF, the register that several instructions also use as their flag (R31). -/
abbrev vf : RegIdx := 15

end Sys2Proof
end

