-- ==== Sys2Proof/Config.lean ====
section
/-! DEFINITION. What is fixed for this hardware: the parameters of 00_scope.md R8 with this hardware's values, and the values
the spec leaves free. The state's shape fixes `STACK_DEPTH`, `DISPLAY_W` and `DISPLAY_H` at the same numbers as here. -/

namespace Sys2Proof.Config

/-- `MEM_SIZE` (R8). -/
abbrev memSize : Nat := 4096

/-- `PROGRAM_ORIGIN` (R8, R39). -/
abbrev programOrigin : Nat := 0x200

/-- `ROM_MAX` (R8): what fits between the program origin and the top of memory. -/
abbrev romMax : Nat := memSize - programOrigin

/-- `STACK_DEPTH` (R8, R40, D1). -/
abbrev stackDepth : Nat := 16

/-- `DISPLAY_W` (R8, R51, D2). -/
abbrev displayW : Nat := 64

/-- `DISPLAY_H` (R8, R51, D2). -/
abbrev displayH : Nat := 32

/-- `TIMER_HZ` (R8, R321): recorded by the spec; no rule and no definition of the model depends on it. -/
abbrev timerHz : Nat := 60

/-- `FONT_BASE` (R8, R81, D6). -/
abbrev fontBase : Nat := 0x000

/-- `SYS_POLICY` (R8, R107, D7): what 0nnn does. -/
inductive SysPolicy where
  | decodeError
  | noOp
deriving DecidableEq, Repr

/-- `SHIFT_SOURCE` (R8, R188, D10): the register 8xy6 and 8xyE shift. -/
inductive ShiftSource where
  | vx
  | vy
deriving DecidableEq, Repr

/-- `JUMP_OFFSET_REG` (R8, R143, D12): the register Bnnn adds. -/
inductive JumpOffsetReg where
  | v0
  | vx
deriving DecidableEq, Repr

/-- `NIBBLE_OPERAND_POLICY` (R8, R223, D16): what a key index or digit above 0xF does. -/
inductive NibblePolicy where
  | fault
  | mask
deriving DecidableEq, Repr

/-- `RESET_REGS` (R8, R33, R35, D3): what V0 to VF and I hold after reset. Under `Arbitrary` each is a free draw, so the
alternative carries the values drawn and a claim under it quantifies over them (log entry 13). -/
inductive ResetRegs where
  | zero
  | arbitrary (v : Vector Byte 16) (i : Word)
deriving DecidableEq, Repr

/-- The parameters of R8 that have an alternative value in the spec. -/
structure Params where
  sysPolicy     : SysPolicy
  shiftSource   : ShiftSource
  logicVfReset  : Bool
  jumpOffsetReg : JumpOffsetReg
  memIIncrement : Bool
  nibblePolicy  : NibblePolicy
  resetRegs     : ResetRegs
deriving DecidableEq, Repr

/-- The values THIS hardware takes (the table of R8). -/
def hardware : Params where
  sysPolicy     := .decodeError
  shiftSource   := .vx
  logicVfReset  := false
  jumpOffsetReg := .v0
  memIIncrement := false
  nibblePolicy  := .fault
  resetRegs     := .zero

/-- FREE VALUE (R201, D13): the random byte of the n-th Cxkk that runs. No body, so nothing can be proved about its values
(log entry 2). -/
opaque rnd : Nat → Byte

end Sys2Proof.Config
end

