-- ==== Sys2Proof/Syntax.lean ====
section
/-! DEFINITION. The instructions: one constructor for each row of spec/opcode_table.json, in the table's order, with the operand
fields of its pattern (30_encoding.md R101, R102, R112). -/

namespace Sys2Proof

/-- The 35 instructions of the base CHIP-8 set (R2, R112). -/
inductive Instr where
  /-- 00E0 `CLS` (R251). -/
  | cls
  /-- 00EE `RET` (R140). -/
  | ret
  /-- 0nnn `SYS addr`, nnn neither 0E0 nor 0EE (R107, R144, R145). -/
  | sys (nnn : Addr12)
  /-- 1nnn `JP addr` (R141). -/
  | jp (nnn : Addr12)
  /-- 2nnn `CALL addr` (R142). -/
  | call (nnn : Addr12)
  /-- 3xkk `SE Vx, byte` (R160). -/
  | seByte (x : RegIdx) (kk : Byte)
  /-- 4xkk `SNE Vx, byte` (R161). -/
  | sneByte (x : RegIdx) (kk : Byte)
  /-- 5xy0 `SE Vx, Vy` (R162). -/
  | seReg (x y : RegIdx)
  /-- 6xkk `LD Vx, byte` (R180). -/
  | ldByte (x : RegIdx) (kk : Byte)
  /-- 7xkk `ADD Vx, byte` (R181). -/
  | addByte (x : RegIdx) (kk : Byte)
  /-- 8xy0 `LD Vx, Vy` (R182). -/
  | ldReg (x y : RegIdx)
  /-- 8xy1 `OR Vx, Vy` (R183). -/
  | orReg (x y : RegIdx)
  /-- 8xy2 `AND Vx, Vy` (R184). -/
  | andReg (x y : RegIdx)
  /-- 8xy3 `XOR Vx, Vy` (R185). -/
  | xorReg (x y : RegIdx)
  /-- 8xy4 `ADD Vx, Vy` (R186). -/
  | addReg (x y : RegIdx)
  /-- 8xy5 `SUB Vx, Vy` (R187). -/
  | subReg (x y : RegIdx)
  /-- 8xy6 `SHR Vx {, Vy}` (R188). -/
  | shr (x y : RegIdx)
  /-- 8xy7 `SUBN Vx, Vy` (R189). -/
  | subnReg (x y : RegIdx)
  /-- 8xyE `SHL Vx {, Vy}` (R190). -/
  | shl (x y : RegIdx)
  /-- 9xy0 `SNE Vx, Vy` (R163). -/
  | sneReg (x y : RegIdx)
  /-- Annn `LD I, addr` (R220). -/
  | ldI (nnn : Addr12)
  /-- Bnnn `JP V0, addr` (R143). -/
  | jpV0 (nnn : Addr12)
  /-- Cxkk `RND Vx, byte` (R200). -/
  | rnd (x : RegIdx) (kk : Byte)
  /-- Dxyn `DRW Vx, Vy, nibble` (R250). -/
  | drw (x y : RegIdx) (n : Nibble)
  /-- Ex9E `SKP Vx` (R270). -/
  | skp (x : RegIdx)
  /-- ExA1 `SKNP Vx` (R271). -/
  | sknp (x : RegIdx)
  /-- Fx07 `LD Vx, DT` (R272). -/
  | ldVxDt (x : RegIdx)
  /-- Fx0A `LD Vx, K` (R275). -/
  | ldVxK (x : RegIdx)
  /-- Fx15 `LD DT, Vx` (R273). -/
  | ldDtVx (x : RegIdx)
  /-- Fx18 `LD ST, Vx` (R274). -/
  | ldStVx (x : RegIdx)
  /-- Fx1E `ADD I, Vx` (R221). -/
  | addIVx (x : RegIdx)
  /-- Fx29 `LD F, Vx` (R222). -/
  | ldFVx (x : RegIdx)
  /-- Fx33 `LD B, Vx` (R224). -/
  | ldBVx (x : RegIdx)
  /-- Fx55 `LD [I], Vx` (R225). -/
  | ldMemVx (x : RegIdx)
  /-- Fx65 `LD Vx, [I]` (R226). -/
  | ldVxMem (x : RegIdx)
deriving DecidableEq, Repr

end Sys2Proof
end

