-- ==== Sys2Proof/Decode.lean ====
section
/-! DEFINITION. The decoder (30_encoding.md R100 to R107), the decode-action table DROM (R103, R104), the encoder, and the opcode
table's rows (spec/opcode_table.json). -/

namespace Sys2Proof

/-! ### The fields of an instruction word (R101) -/

/-- The family, w[15:12]. -/
def opOf (w : Word) : Nibble := w.extractLsb' 12 4
/-- x, w[11:8], as a register index. -/
def xOf (w : Word) : RegIdx := (w.extractLsb' 8 4).toFin
/-- y, w[7:4], as a register index. -/
def yOf (w : Word) : RegIdx := (w.extractLsb' 4 4).toFin
/-- n, w[3:0]. -/
def nOf (w : Word) : Nibble := w.extractLsb' 0 4
/-- kk, w[7:0]. -/
def kkOf (w : Word) : Byte := w.extractLsb' 0 8
/-- nnn, w[11:0]. -/
def nnnOf (w : Word) : Addr12 := w.extractLsb' 0 12

/-- The byte order of the fetch: the byte at the lower address is the high byte (20_memory.md R76, R77). -/
def wordOfBytes (hi lo : Byte) : Word := hi ++ lo
/-- The byte of a word that stands at the lower address (R76). -/
def hiByte (w : Word) : Byte := w.extractLsb' 8 8
/-- The byte of a word that stands at the higher address (R76). -/
def loByte (w : Word) : Byte := w.extractLsb' 0 8

/-! ### The decoder -/

/-- Why bytes are no instruction. -/
inductive DecodeError where
  /-- R106: a word no row of the opcode table has. Safe: the step then takes the DecodeError fault. -/
  | illegal (w : Word)
  /-- Fewer than the two bytes R100 asks for. Safe: only `decodeBytes` answers it, the fetch of a step always has two bytes. -/
  | tooShort
deriving DecidableEq, Repr

/-- Family 0 (R105): the two exact words first, then SYS. -/
def decode0 (w : Word) : Except DecodeError Instr :=
  if w = 0x00E0#16 then .ok .cls
  else if w = 0x00EE#16 then .ok .ret
  else .ok (.sys (nnnOf w))

/-- Family 8 (R105): the sub-selector is n. -/
def decode8 (w : Word) : Except DecodeError Instr :=
  match (nOf w).toNat with
  | 0x0 => .ok (.ldReg (xOf w) (yOf w))
  | 0x1 => .ok (.orReg (xOf w) (yOf w))
  | 0x2 => .ok (.andReg (xOf w) (yOf w))
  | 0x3 => .ok (.xorReg (xOf w) (yOf w))
  | 0x4 => .ok (.addReg (xOf w) (yOf w))
  | 0x5 => .ok (.subReg (xOf w) (yOf w))
  | 0x6 => .ok (.shr (xOf w) (yOf w))
  | 0x7 => .ok (.subnReg (xOf w) (yOf w))
  | 0xE => .ok (.shl (xOf w) (yOf w))
  | _ => .error (.illegal w)

/-- Family E (R105): the sub-selector is kk. -/
def decodeE (w : Word) : Except DecodeError Instr :=
  match (kkOf w).toNat with
  | 0x9E => .ok (.skp (xOf w))
  | 0xA1 => .ok (.sknp (xOf w))
  | _ => .error (.illegal w)

/-- Family F (R105): the sub-selector is kk. -/
def decodeF (w : Word) : Except DecodeError Instr :=
  match (kkOf w).toNat with
  | 0x07 => .ok (.ldVxDt (xOf w))
  | 0x0A => .ok (.ldVxK (xOf w))
  | 0x15 => .ok (.ldDtVx (xOf w))
  | 0x18 => .ok (.ldStVx (xOf w))
  | 0x1E => .ok (.addIVx (xOf w))
  | 0x29 => .ok (.ldFVx (xOf w))
  | 0x33 => .ok (.ldBVx (xOf w))
  | 0x55 => .ok (.ldMemVx (xOf w))
  | 0x65 => .ok (.ldVxMem (xOf w))
  | _ => .error (.illegal w)

/-- `Decode(w)` of R105, total on every word. SYS words decode to `.sys`; what they then do is `SYS_POLICY`'s (R107), which the
meaning of `.sys` reads (log entry 3). -/
def decode (w : Word) : Except DecodeError Instr :=
  match (opOf w).toNat with
  | 0x0 => decode0 w
  | 0x1 => .ok (.jp (nnnOf w))
  | 0x2 => .ok (.call (nnnOf w))
  | 0x3 => .ok (.seByte (xOf w) (kkOf w))
  | 0x4 => .ok (.sneByte (xOf w) (kkOf w))
  | 0x5 => if nOf w = 0#4 then .ok (.seReg (xOf w) (yOf w)) else .error (.illegal w)
  | 0x6 => .ok (.ldByte (xOf w) (kkOf w))
  | 0x7 => .ok (.addByte (xOf w) (kkOf w))
  | 0x8 => decode8 w
  | 0x9 => if nOf w = 0#4 then .ok (.sneReg (xOf w) (yOf w)) else .error (.illegal w)
  | 0xA => .ok (.ldI (nnnOf w))
  | 0xB => .ok (.jpV0 (nnnOf w))
  | 0xC => .ok (.rnd (xOf w) (kkOf w))
  | 0xD => .ok (.drw (xOf w) (yOf w) (nOf w))
  | 0xE => decodeE w
  | 0xF => decodeF w
  | _ => .error (.illegal w)

/-- The decoder on bytes as memory holds them: it takes two and gives back the rest (R100: a decoder always consumes exactly 2
bytes). -/
def decodeBytes : List Byte → Except DecodeError (Instr × List Byte)
  | hi :: lo :: rest =>
    match decode (wordOfBytes hi lo) with
    | .ok i => .ok (i, rest)
    | .error e => .error e
  | _ => .error .tooShort

/-- What the decoder reads from the instruction whose bits are `w`, numbered as spec/opcode_table.json numbers them: the low
`nbits` bits of `w`, every higher bit of the 16 being 0, laid out high byte first (R76). -/
def decodeTableWord (nbits w : Nat) : Option Instr :=
  match decodeBytes [hiByte (BitVec.ofNat 16 (w % 2 ^ nbits)), loByte (BitVec.ofNat 16 (w % 2 ^ nbits))] with
  | .ok (i, _) => some i
  | .error _ => none

/-! ### The encoder -/

/-- A register index as the 4 bits of a word. -/
abbrev regBits (x : RegIdx) : BitVec 4 := BitVec.ofFin x

/-- The word of an instruction, from the formats of R101. -/
def encode : Instr → Word
  | .cls => 0x00E0#16
  | .ret => 0x00EE#16
  | .sys nnn => 0x0#4 ++ nnn
  | .jp nnn => 0x1#4 ++ nnn
  | .call nnn => 0x2#4 ++ nnn
  | .seByte x kk => 0x3#4 ++ regBits x ++ kk
  | .sneByte x kk => 0x4#4 ++ regBits x ++ kk
  | .seReg x y => 0x5#4 ++ regBits x ++ regBits y ++ 0x0#4
  | .ldByte x kk => 0x6#4 ++ regBits x ++ kk
  | .addByte x kk => 0x7#4 ++ regBits x ++ kk
  | .ldReg x y => 0x8#4 ++ regBits x ++ regBits y ++ 0x0#4
  | .orReg x y => 0x8#4 ++ regBits x ++ regBits y ++ 0x1#4
  | .andReg x y => 0x8#4 ++ regBits x ++ regBits y ++ 0x2#4
  | .xorReg x y => 0x8#4 ++ regBits x ++ regBits y ++ 0x3#4
  | .addReg x y => 0x8#4 ++ regBits x ++ regBits y ++ 0x4#4
  | .subReg x y => 0x8#4 ++ regBits x ++ regBits y ++ 0x5#4
  | .shr x y => 0x8#4 ++ regBits x ++ regBits y ++ 0x6#4
  | .subnReg x y => 0x8#4 ++ regBits x ++ regBits y ++ 0x7#4
  | .shl x y => 0x8#4 ++ regBits x ++ regBits y ++ 0xE#4
  | .sneReg x y => 0x9#4 ++ regBits x ++ regBits y ++ 0x0#4
  | .ldI nnn => 0xA#4 ++ nnn
  | .jpV0 nnn => 0xB#4 ++ nnn
  | .rnd x kk => 0xC#4 ++ regBits x ++ kk
  | .drw x y n => 0xD#4 ++ regBits x ++ regBits y ++ n
  | .skp x => 0xE#4 ++ regBits x ++ 0x9E#8
  | .sknp x => 0xE#4 ++ regBits x ++ 0xA1#8
  | .ldVxDt x => 0xF#4 ++ regBits x ++ 0x07#8
  | .ldVxK x => 0xF#4 ++ regBits x ++ 0x0A#8
  | .ldDtVx x => 0xF#4 ++ regBits x ++ 0x15#8
  | .ldStVx x => 0xF#4 ++ regBits x ++ 0x18#8
  | .addIVx x => 0xF#4 ++ regBits x ++ 0x1E#8
  | .ldFVx x => 0xF#4 ++ regBits x ++ 0x29#8
  | .ldBVx x => 0xF#4 ++ regBits x ++ 0x33#8
  | .ldMemVx x => 0xF#4 ++ regBits x ++ 0x55#8
  | .ldVxMem x => 0xF#4 ++ regBits x ++ 0x65#8

/-! ### The decode-action table (R103, R104) -/

/-- The selector kinds of R103. -/
inductive Selector where
  | one
  | selNnn
  | nZero
  | selN
  | selKk
deriving DecidableEq, Repr

/-- DROM[0..15], the contents of R104. -/
def drom : Vector Byte 16 :=
  #v[0x10, 0x01, 0x02, 0x03, 0x04, 0x25, 0x06, 0x07, 0x38, 0x29, 0x0A, 0x0B, 0x0C, 0x0D, 0x4E, 0x4F]

/-- The selector kind of a table entry, its bits 7:4 (R104). -/
def dromSelector (e : Byte) : Option Selector :=
  match (e.extractLsb' 4 4).toNat with
  | 0 => some .one
  | 1 => some .selNnn
  | 2 => some .nZero
  | 3 => some .selN
  | 4 => some .selKk
  | _ => none

/-- The handler group of a table entry, its bits 3:0 (R104). -/
def dromGroup (e : Byte) : Nibble := e.extractLsb' 0 4

/-- The sub-selector an entry's kind takes from the word (R103); none for `ONE`, which has no sub-selector. -/
def subSelector (k : Selector) (w : Word) : Option Nat :=
  match k with
  | .one => none
  | .selNnn => some (nnnOf w).toNat
  | .nZero => some (nOf w).toNat
  | .selN => some (nOf w).toNat
  | .selKk => some (kkOf w).toNat

/-- The mapping from handler group and sub-selector to an instruction (R103). -/
def dromHandler (g : Nat) (sub : Option Nat) (w : Word) : Except DecodeError Instr :=
  match g, sub with
  | 0x0, some 0x0E0 => .ok .cls
  | 0x0, some 0x0EE => .ok .ret
  | 0x0, some _ => .ok (.sys (nnnOf w))
  | 0x1, none => .ok (.jp (nnnOf w))
  | 0x2, none => .ok (.call (nnnOf w))
  | 0x3, none => .ok (.seByte (xOf w) (kkOf w))
  | 0x4, none => .ok (.sneByte (xOf w) (kkOf w))
  | 0x5, some 0x0 => .ok (.seReg (xOf w) (yOf w))
  | 0x6, none => .ok (.ldByte (xOf w) (kkOf w))
  | 0x7, none => .ok (.addByte (xOf w) (kkOf w))
  | 0x8, some 0x0 => .ok (.ldReg (xOf w) (yOf w))
  | 0x8, some 0x1 => .ok (.orReg (xOf w) (yOf w))
  | 0x8, some 0x2 => .ok (.andReg (xOf w) (yOf w))
  | 0x8, some 0x3 => .ok (.xorReg (xOf w) (yOf w))
  | 0x8, some 0x4 => .ok (.addReg (xOf w) (yOf w))
  | 0x8, some 0x5 => .ok (.subReg (xOf w) (yOf w))
  | 0x8, some 0x6 => .ok (.shr (xOf w) (yOf w))
  | 0x8, some 0x7 => .ok (.subnReg (xOf w) (yOf w))
  | 0x8, some 0xE => .ok (.shl (xOf w) (yOf w))
  | 0x9, some 0x0 => .ok (.sneReg (xOf w) (yOf w))
  | 0xA, none => .ok (.ldI (nnnOf w))
  | 0xB, none => .ok (.jpV0 (nnnOf w))
  | 0xC, none => .ok (.rnd (xOf w) (kkOf w))
  | 0xD, none => .ok (.drw (xOf w) (yOf w) (nOf w))
  | 0xE, some 0x9E => .ok (.skp (xOf w))
  | 0xE, some 0xA1 => .ok (.sknp (xOf w))
  | 0xF, some 0x07 => .ok (.ldVxDt (xOf w))
  | 0xF, some 0x0A => .ok (.ldVxK (xOf w))
  | 0xF, some 0x15 => .ok (.ldDtVx (xOf w))
  | 0xF, some 0x18 => .ok (.ldStVx (xOf w))
  | 0xF, some 0x1E => .ok (.addIVx (xOf w))
  | 0xF, some 0x29 => .ok (.ldFVx (xOf w))
  | 0xF, some 0x33 => .ok (.ldBVx (xOf w))
  | 0xF, some 0x55 => .ok (.ldMemVx (xOf w))
  | 0xF, some 0x65 => .ok (.ldVxMem (xOf w))
  | _, _ => .error (.illegal w)

/-- The two-level decode of R103: the family indexes DROM, the entry's kind picks the sub-selector, the pair picks the handler. -/
def decodeViaDrom (w : Word) : Except DecodeError Instr :=
  let e := drom[(opOf w).toNat]
  match dromSelector e with
  | some k => dromHandler (dromGroup e).toNat (subSelector k w) w
  | none => .error (.illegal w)

/-! ### Illegal words (R106, R107) -/

/-- The words that raise DecodeError under a value of `SYS_POLICY` (R106): those the decoder rejects, and the SYS words where the
policy is `DecodeError`. -/
def illegalWord (p : Config.SysPolicy) (w : Word) : Bool :=
  match decode w with
  | .error _ => true
  | .ok (.sys _) => p == .decodeError
  | .ok _ => false

/-! ### The rows of spec/opcode_table.json -/

/-- A row's mask and match. -/
structure Row where
  mask  : Word
  value : Word
deriving DecidableEq, Repr

/-- A word belongs to a row when its fixed bits are the row's. -/
def Row.has (r : Row) (w : Word) : Bool := w &&& r.mask == r.value

/-- The row an instruction stands in. -/
def tableRow : Instr → Row
  | .cls => ⟨0xFFFF, 0x00E0⟩
  | .ret => ⟨0xFFFF, 0x00EE⟩
  | .sys _ => ⟨0xF000, 0x0000⟩
  | .jp _ => ⟨0xF000, 0x1000⟩
  | .call _ => ⟨0xF000, 0x2000⟩
  | .seByte _ _ => ⟨0xF000, 0x3000⟩
  | .sneByte _ _ => ⟨0xF000, 0x4000⟩
  | .seReg _ _ => ⟨0xF00F, 0x5000⟩
  | .ldByte _ _ => ⟨0xF000, 0x6000⟩
  | .addByte _ _ => ⟨0xF000, 0x7000⟩
  | .ldReg _ _ => ⟨0xF00F, 0x8000⟩
  | .orReg _ _ => ⟨0xF00F, 0x8001⟩
  | .andReg _ _ => ⟨0xF00F, 0x8002⟩
  | .xorReg _ _ => ⟨0xF00F, 0x8003⟩
  | .addReg _ _ => ⟨0xF00F, 0x8004⟩
  | .subReg _ _ => ⟨0xF00F, 0x8005⟩
  | .shr _ _ => ⟨0xF00F, 0x8006⟩
  | .subnReg _ _ => ⟨0xF00F, 0x8007⟩
  | .shl _ _ => ⟨0xF00F, 0x800E⟩
  | .sneReg _ _ => ⟨0xF00F, 0x9000⟩
  | .ldI _ => ⟨0xF000, 0xA000⟩
  | .jpV0 _ => ⟨0xF000, 0xB000⟩
  | .rnd _ _ => ⟨0xF000, 0xC000⟩
  | .drw _ _ _ => ⟨0xF000, 0xD000⟩
  | .skp _ => ⟨0xF0FF, 0xE09E⟩
  | .sknp _ => ⟨0xF0FF, 0xE0A1⟩
  | .ldVxDt _ => ⟨0xF0FF, 0xF007⟩
  | .ldVxK _ => ⟨0xF0FF, 0xF00A⟩
  | .ldDtVx _ => ⟨0xF0FF, 0xF015⟩
  | .ldStVx _ => ⟨0xF0FF, 0xF018⟩
  | .addIVx _ => ⟨0xF0FF, 0xF01E⟩
  | .ldFVx _ => ⟨0xF0FF, 0xF029⟩
  | .ldBVx _ => ⟨0xF0FF, 0xF033⟩
  | .ldMemVx _ => ⟨0xF0FF, 0xF055⟩
  | .ldVxMem _ => ⟨0xF0FF, 0xF065⟩

end Sys2Proof
end

