-- ==== Sys2Proof/Machine/State.lean ====
section
/-! DEFINITION. The machine's state as plain data (10_state.md R30 to R59), the fault causes (60_exceptions.md R300), and reset
(70_reset_and_hazards.md R350). -/

namespace Sys2Proof.Machine

/-- The display grid, `disp[x][y]` with column x and row y (R51, R59). -/
abbrev Display := Vector (Vector Bool 32) 64

/-- Memory: the bytes that differ from the reset contents, by rising address (the form is `Memory.wf` in Ops.lean). -/
abbrev Memory := List Host.Cell

/-- The failures of R300. A step never ends in one as an outcome: R303 makes a fault an entry into `Run = Faulted(f)`, so a
meaning answers a next state whose fault record has one of these as its kind (log entry 1). -/
inductive Fault where
  /-- Code 1, recorded by the decode of a word that is no instruction and by SYS. Safe: the machine stops where R106 says so. -/
  | decodeError
  /-- Code 2, recorded by the fetch and by Dxyn, Fx33, Fx55, Fx65 on a range that leaves memory (R74). Safe. -/
  | memoryOutOfRange
  /-- Code 3, recorded by RET on an empty stack (R140). Safe. -/
  | stackUnderflow
  /-- Code 4, recorded by CALL on a full stack (R142). Safe. -/
  | stackOverflow
  /-- Code 5, answered by the host's `load` only, never recorded by a step (R352). Safe: the state is unchanged. -/
  | romTooLarge
  /-- Code 6, recorded by Ex9E, ExA1 and Fx29 on a value above 0xF (R223). Safe. -/
  | operandOutOfRange
deriving DecidableEq, Repr

/-- What the model does not answer. -/
inductive Refusal where
  /-- An arm of `exec` that has no meaning yet. Safe. No arm of this model answers it. -/
  | notModelled (mnemonic : String)
  /-- The host's readback `is_set` at a coordinate outside the 64 x 32 grid, which R327 refuses. Safe. No step answers it. -/
  | readbackOutsideGrid
deriving DecidableEq, Repr

/-- The fault record of R50. `addr` is an unsigned integer that no rule masks, so it is a `Nat`. -/
structure FaultRecord where
  kind  : Fault
  pc    : Word
  word  : Option Word
  addr  : Option Nat
  value : Option Byte
deriving DecidableEq, Repr

/-- The run state (R48). -/
inductive RunState where
  | running
  | awaitingKey (x : RegIdx)
  | faulted (f : FaultRecord)
deriving DecidableEq, Repr

/-- The state vector of R59, and the model's own counter of random draws (log entry 2). -/
structure State where
  /-- V0 to VF (R30). -/
  v     : Vector Byte 16
  /-- I (R34). -/
  i     : Word
  /-- PC (R36). -/
  pc    : Word
  /-- S[0] to S[15]; the entries below `sp` are the stack (R40). -/
  stack : Vector Word 16
  /-- SP, the depth (R41). -/
  sp    : Fin 17
  /-- DT (R43). -/
  dt    : Byte
  /-- ST (R44). -/
  st    : Byte
  /-- Key[0] to Key[15] (R46). -/
  key   : Vector Bool 16
  /-- Disp (R51). -/
  disp  : Display
  /-- mem (R53). -/
  mem   : Memory
  /-- Run (R48). -/
  run   : RunState
  /-- The model's own: how many random bytes Cxkk has taken (log entry 2). -/
  draws : Nat
deriving DecidableEq, Repr

/-- V0 to VF after reset (R33). -/
def resetV : Config.ResetRegs → Vector Byte 16
  | .zero => Vector.replicate 16 0#8
  | .arbitrary v _ => v

/-- I after reset (R35). -/
def resetI : Config.ResetRegs → Word
  | .zero => 0x0000#16
  | .arbitrary _ i => i

/-- No pixel set (R52). -/
def clearDisplay : Display := Vector.replicate 64 (Vector.replicate 32 false)

/-- The state right after emulator construction, under given parameters (R350): memory holds its reset contents, so nothing is
listed (R54); the keypad latch is clear (R47); the stack entries, to which the spec gives no value (R42), are 0 (log entry 4). -/
def State.resetUnder (p : Config.Params) : State where
  v     := resetV p.resetRegs
  i     := resetI p.resetRegs
  pc    := 0x0200#16
  stack := Vector.replicate 16 0#16
  sp    := 0
  dt    := 0#8
  st    := 0#8
  key   := Vector.replicate 16 false
  disp  := clearDisplay
  mem   := []
  run   := .running
  draws := 0

/-- The machine right after reset, with this hardware's parameters (R350). -/
def State.reset : State := State.resetUnder Config.hardware

end Sys2Proof.Machine
end

