-- ==== Sys2Proof/Machine/Ops.lean ====
section
/-! DEFINITION. The named operations over memory, registers, stack, display and PC, and taking a fault. -/

namespace Sys2Proof.Machine

/-- What a step or a meaning answers. -/
abbrev Result := Host.Outcome State Fault Refusal

/-! ### Memory (20_memory.md) -/

/-- The glyphs 0 to F, five rows each, top row first (R81). -/
def fontGlyphs : List (List Byte) :=
  [[0xF0, 0x90, 0x90, 0x90, 0xF0], [0x20, 0x60, 0x20, 0x20, 0x70], [0xF0, 0x10, 0xF0, 0x80, 0xF0], [0xF0, 0x10, 0xF0, 0x10, 0xF0]] ++
  [[0x90, 0x90, 0xF0, 0x10, 0x10], [0xF0, 0x80, 0xF0, 0x10, 0xF0], [0xF0, 0x80, 0xF0, 0x90, 0xF0], [0xF0, 0x10, 0x20, 0x40, 0x40]] ++
  [[0xF0, 0x90, 0xF0, 0x90, 0xF0], [0xF0, 0x90, 0xF0, 0x10, 0xF0], [0xF0, 0x90, 0xF0, 0x90, 0x90], [0xE0, 0x90, 0xE0, 0x90, 0xE0]] ++
  [[0xF0, 0x80, 0x80, 0x80, 0xF0], [0xE0, 0x90, 0x90, 0x90, 0xE0], [0xF0, 0x80, 0xF0, 0x80, 0xF0], [0xF0, 0x80, 0xF0, 0x80, 0x80]]

/-- What an unlisted address reads as: the reset contents, the font at `FONT_BASE` and 0 elsewhere (10_state.md R54, R81). -/
def Memory.unlisted (a : Nat) : Byte :=
  if Config.fontBase ≤ a ∧ a < Config.fontBase + 80 then
    (fontGlyphs.getD ((a - Config.fontBase) / 5) []).getD ((a - Config.fontBase) % 5) 0#8
  else 0#8

/-- The byte at an address. -/
def Memory.read : Memory → Nat → Byte
  | [], a => Memory.unlisted a
  | (b, v) :: rest, a => if b = a then v else Memory.read rest a

/-- One byte written, the canonical form kept: the value an unlisted address reads as is not listed. -/
def Memory.write : Memory → Nat → Byte → Memory
  | [], a, v => if v = Memory.unlisted a then [] else [(a, v)]
  | (b, u) :: rest, a, v =>
    if a < b then (if v = Memory.unlisted a then (b, u) :: rest else (a, v) :: (b, u) :: rest)
    else if a = b then (if v = Memory.unlisted a then rest else (a, v) :: rest)
    else (b, u) :: Memory.write rest a v

/-- The bytes of a list written at consecutive addresses, in ascending order (R77, R85). -/
def Memory.writeList : Memory → Nat → List Byte → Memory
  | m, _, [] => m
  | m, a, v :: vs => Memory.writeList (Memory.write m a v) (a + 1) vs

/-- The n bytes at consecutive addresses, in ascending order. -/
def Memory.readList (m : Memory) (a : Nat) : Nat → List Byte
  | 0 => []
  | n + 1 => Memory.read m a :: Memory.readList m (a + 1) n

/-- The canonical form from an address on: addresses rising and inside memory, no entry equal to what its address reads as
unlisted. -/
def Memory.wfFrom : Nat → Memory → Bool
  | _, [] => true
  | lo, (a, v) :: rest =>
    decide (lo ≤ a) && decide (a < Config.memSize) && decide (v ≠ Memory.unlisted a) && Memory.wfFrom (a + 1) rest

/-- The canonical form of memory. -/
def Memory.wf (m : Memory) : Bool := Memory.wfFrom 0 m

/-- `CheckRange(addr, n)` of R74, with no check for n = 0: the offending address where the range leaves memory. Addresses are
unbounded and never reduced (R72). -/
def checkRange (addr n : Nat) : Except Nat Unit :=
  if n ≠ 0 ∧ addr + n - 1 > 0xFFF then .error (max addr 0x1000) else .ok ()

/-- `MemRead(addr, n)` of R74. -/
def memRead (m : Memory) (addr n : Nat) : Except Nat (List Byte) :=
  match checkRange addr n with
  | .ok _ => .ok (m.readList addr n)
  | .error a => .error a

/-- `MemWrite(addr, n, v)` of R74, n being the list's length. -/
def memWrite (m : Memory) (addr : Nat) (bytes : List Byte) : Except Nat Memory :=
  match checkRange addr bytes.length with
  | .ok _ => .ok (m.writeList addr bytes)
  | .error a => .error a

/-- `Fetch16(pc)` of R76: big-endian, range-checked. -/
def fetch16 (m : Memory) (pc : Nat) : Except Nat Word :=
  match checkRange pc 2 with
  | .ok _ => .ok (wordOfBytes (m.read pc) (m.read (pc + 1)))
  | .error a => .error a

/-- Memory replaced. -/
def State.setMem (s : State) (m : Memory) : State := { s with mem := m }

/-! ### Registers (10_state.md R30 to R45). No register is hardwired and none has an alias. -/

/-- V[x]. -/
def State.reg (s : State) (x : RegIdx) : Byte := s.v[x.val]

/-- V[x] <- b. -/
def State.setReg (s : State) (x : RegIdx) (b : Byte) : State := { s with v := s.v.set x.val b }

/-- V[0], …, V[x], in order (R225). -/
def State.regsUpTo (s : State) (x : RegIdx) : List Byte := s.v.toList.take (x.val + 1)

/-- V[k], V[k+1], … <- the bytes of a list (R226). -/
def setRegsFrom (v : Vector Byte 16) (k : Nat) : List Byte → Vector Byte 16
  | [] => v
  | b :: bs => setRegsFrom (v.setIfInBounds k b) (k + 1) bs

/-- V[0], V[1], … <- the bytes of a list (R226). -/
def State.setRegs (s : State) (bs : List Byte) : State := { s with v := setRegsFrom s.v 0 bs }

/-- I <- w. -/
def State.setI (s : State) (w : Word) : State := { s with i := w }

/-- DT <- b. -/
def State.setDt (s : State) (b : Byte) : State := { s with dt := b }

/-- ST <- b. -/
def State.setSt (s : State) (b : Byte) : State := { s with st := b }

/-- The next random draw is taken (R201, log entry 2). -/
def State.takeDraw (s : State) : State := { s with draws := s.draws + 1 }

/-! ### The program counter (30_encoding.md R109, R110) -/

/-- PC <- target. -/
def State.setPc (s : State) (target : Word) : State := { s with pc := target }

/-- PC <- PC + 2, the default advance (R109). -/
def State.advance (s : State) : State := { s with pc := s.pc + 2#16 }

/-- PC <- PC + 4 where the condition holds, else PC + 2 (R109, R164). -/
def State.skipIf (s : State) (c : Bool) : State := { s with pc := s.pc + (if c then 4#16 else 2#16) }

/-! ### The call stack (10_state.md R40, R41) -/

/-- The return address pushed, or none where SP = `STACK_DEPTH` (R142). -/
def State.push (s : State) (ret : Word) : Option State :=
  if h : s.sp.val < Config.stackDepth then
    some { s with stack := s.stack.set s.sp.val ret, sp := ⟨s.sp.val + 1, Nat.succ_lt_succ h⟩ }
  else none

/-- The top entry and the state without it, or none where SP = 0 (R140). The entry stays in its slot, which no rule reads again
(R42). -/
def State.pop (s : State) : Option (Word × State) :=
  match s.sp with
  | ⟨0, _⟩ => none
  | ⟨j + 1, h⟩ => some (s.stack[j], { s with sp := ⟨j, Nat.lt_of_succ_lt h⟩ })

/-! ### The display (10_state.md R51) -/

/-- The pixel at column px and row py. -/
def Display.pixel (d : Display) (px : Fin 64) (py : Fin 32) : Bool := d[px.val][py.val]

/-- The pixel at column px and row py, inverted. -/
def Display.flip (d : Display) (px : Fin 64) (py : Fin 32) : Display :=
  d.set px.val (d[px.val].set py.val (!d[px.val][py.val]))

/-- The display replaced. -/
def State.setDisp (s : State) (d : Display) : State := { s with disp := d }

/-- The display during a draw, and whether a set pixel has been unset so far (R250). -/
structure Blit where
  disp : Display
  coll : Bool
deriving DecidableEq, Repr

/-- The column of sprite bit c of a sprite at x0, reduced to the grid (R250). -/
def spriteCol (x0 c : Nat) : Fin 64 := Fin.ofNat 64 (x0 + c)

/-- The row of sprite row r of a sprite at y0, reduced to the grid (R250). -/
def spriteRow (y0 r : Nat) : Fin 32 := Fin.ofNat 32 (y0 + r)

/-- Sprite bit c of a row: bit 7 is the leftmost (R252). -/
def spriteBit (row : Byte) (c : Nat) : Bool := row.getLsbD (7 - c)

/-- One sprite bit drawn: the body of R250's inner loop. -/
def blitBit (x0 y0 r : Nat) (row : Byte) (b : Blit) (c : Nat) : Blit :=
  if spriteBit row c then
    { disp := b.disp.flip (spriteCol x0 c) (spriteRow y0 r),
      coll := b.coll || b.disp.pixel (spriteCol x0 c) (spriteRow y0 r) }
  else b

/-- One sprite row drawn, c = 0 to 7. -/
def blitRow (x0 y0 r : Nat) (row : Byte) (b : Blit) : Blit := (List.range 8).foldl (blitBit x0 y0 r row) b

/-- The sprite rows from row r on drawn, top to bottom (R250, R252). -/
def blitRows (x0 y0 : Nat) : Nat → List Byte → Blit → Blit
  | _, [], b => b
  | r, row :: rows, b => blitRows x0 y0 (r + 1) rows (blitRow x0 y0 r row b)

/-! ### Taking a fault (60_exceptions.md R300 to R306)

There is no return from a fault beside it: no instruction returns from one, and only a successful `load` clears it, by resetting
the core (R305; `load` is in HostEvents.lean). -/

/-- A fault raised inside a step, with what R300 records of it. -/
inductive Trap where
  | decodeError
  | memoryOutOfRange (addr : Nat)
  | stackUnderflow
  | stackOverflow
  | operandOutOfRange (value : Byte)
deriving DecidableEq, Repr

/-- The fault record of a trap at a PC, with the instruction word or none where the fetch faulted (10_state.md R50, R300). -/
def Trap.record (c : Trap) (pc : Word) (word : Option Word) : FaultRecord :=
  match c with
  | .decodeError => ⟨.decodeError, pc, word, none, none⟩
  | .memoryOutOfRange a => ⟨.memoryOutOfRange, pc, word, some a, none⟩
  | .stackUnderflow => ⟨.stackUnderflow, pc, word, none, none⟩
  | .stackOverflow => ⟨.stackOverflow, pc, word, none, none⟩
  | .operandOutOfRange v => ⟨.operandOutOfRange, pc, word, none, some v⟩

/-- Run <- r. -/
def State.setRun (s : State) (r : RunState) : State := { s with run := r }

/-- Taking a fault (R303): nothing of the step is written, PC keeps the address of the instruction, Run <- Faulted(f). -/
def State.takeFault (s : State) (c : Trap) (word : Option Word) : State := s.setRun (.faulted (c.record s.pc word))

/-- `raise c` inside the execution of an instruction: the record's word is the instruction's own (log entry 5). -/
def raise (c : Trap) (i : Instr) (s : State) : Result := .next (s.takeFault c (some (encode i)))

/-- The numeric code of a fault (R300). -/
def Fault.code : Fault → Nat
  | .decodeError => 1
  | .memoryOutOfRange => 2
  | .stackUnderflow => 3
  | .stackOverflow => 4
  | .romTooLarge => 5
  | .operandOutOfRange => 6

/-! ### The step cycle (30_encoding.md R108) -/

/-- One step around a given execution of instructions. Held while a key is awaited, and unchanged while faulted; otherwise fetch,
decode, execute, in the order of R302. -/
def cycle (execute : Instr → State → Result) (s : State) : Result :=
  match s.run with
  | .awaitingKey _ => .next s
  | .faulted _ => .next s
  | .running =>
    match fetch16 s.mem s.pc.toNat with
    | .error a => .next (s.takeFault (.memoryOutOfRange a) none)
    | .ok w =>
      match decode w with
      | .error _ => .next (s.takeFault .decodeError (some w))
      | .ok i => execute i s

end Sys2Proof.Machine
end

