-- ==== Sys2Proof/Machine/Operands.lean ====
section
/-! DEFINITION. The operand forms: immediates and addresses zero-extended (30_encoding.md R102), a nibble operand from a register
(43_index_memory.md R223), the offset register of Bnnn (40_control_flow.md R143), the source of a shift (42_load_arith.md R188). -/

namespace Sys2Proof.Machine

/-- An address immediate as a 16-bit value, `zext_16(nnn)` (R102). -/
def zextAddr (nnn : Addr12) : Word := nnn.setWidth 16

/-- `NibbleOperand(v)` of R223: a key index or digit 0 to 15, or the value that is out of range. -/
def nibbleOperand (p : Config.NibblePolicy) (b : Byte) : Except Byte (Fin 16) :=
  if b.toNat ≤ 0xF then .ok (Fin.ofNat 16 b.toNat)
  else match p with
    | .fault => .error b
    | .mask => .ok (Fin.ofNat 16 b.toNat)

/-- The register whose value Bnnn adds: V0, or the one named by nnn[11:8] (R143). -/
def jumpOffsetReg (p : Config.JumpOffsetReg) (nnn : Addr12) : RegIdx :=
  match p with
  | .v0 => 0
  | .vx => (nnn.extractLsb' 8 4).toFin

/-- The value that 8xy6 and 8xyE shift (R188, R190). -/
def shiftOperand (p : Config.ShiftSource) (x y : RegIdx) (s : State) : Byte :=
  match p with
  | .vx => s.reg x
  | .vy => s.reg y

/-- The hundreds, tens and units digits of a byte, each in its own byte (R224). -/
def bcdDigits (b : Byte) : List Byte :=
  [BitVec.ofNat 8 (b.toNat / 100), BitVec.ofNat 8 (b.toNat / 10 % 10), BitVec.ofNat 8 (b.toNat % 10)]

/-- I after Fx55 or Fx65: I + x + 1 under `MEM_I_INCREMENT`, else unchanged (R225, R226). -/
def indexAfter (increment : Bool) (x : RegIdx) (s : State) : Word :=
  if increment then BitVec.ofNat 16 (s.i.toNat + x.val + 1) else s.i

end Sys2Proof.Machine
end

