-- ==== Sys2Proof/Machine/Flags.lean ====
section
/-! DEFINITION. Every result and flag of the V-register arithmetic, computed on naturals and narrowed at the end (42_load_arith.md
R181 to R190, R202), and the write of a result with its flag in the order of R11 and D8. -/

namespace Sys2Proof.Machine

/-- A condition as a flag value, 1 or 0. -/
def flagOf (c : Bool) : Byte := if c then 1#8 else 0#8

/-- (a + b) mod 256 (R181, R186). -/
def addByte (a b : Byte) : Byte := BitVec.ofNat 8 ((a.toNat + b.toNat) % 256)

/-- (a - b) mod 256 (R187, R189). -/
def subByte (a b : Byte) : Byte := BitVec.ofNat 8 ((a.toNat + 256 - b.toNat) % 256)

/-- The carry of a + b: 1 when the unsigned sum exceeds 255 (R186). -/
def carryFlag (a b : Byte) : Byte := flagOf (a.toNat + b.toNat > 255)

/-- NOT borrow of a - b: 1 when a ≥ b (R187, R189, D9). -/
def notBorrowFlag (a b : Byte) : Byte := flagOf (b.toNat ≤ a.toNat)

/-- The logical shift right by one (R188). -/
def shrByte (a : Byte) : Byte := BitVec.ofNat 8 (a.toNat / 2)

/-- The bit a right shift shifts out, bit 0 (R188). -/
def shrFlag (a : Byte) : Byte := BitVec.ofNat 8 (a.toNat % 2)

/-- The shift left by one (R190). -/
def shlByte (a : Byte) : Byte := BitVec.ofNat 8 (a.toNat * 2 % 256)

/-- The bit a left shift shifts out, bit 7 (R190). -/
def shlFlag (a : Byte) : Byte := BitVec.ofNat 8 (a.toNat / 128)

/-- V[x] <- result, then VF <- flag: with x = F the flag remains (R11, R203, D8). -/
def State.setResultFlag (s : State) (x : RegIdx) (result flag : Byte) : State := (s.setReg x result).setReg vf flag

/-- V[x] <- result, then VF <- 0 under `LOGIC_VF_RESET` (R183 to R185, D11). -/
def State.setLogicResult (s : State) (vfReset : Bool) (x : RegIdx) (result : Byte) : State :=
  if vfReset then s.setResultFlag x result 0#8 else s.setReg x result

end Sys2Proof.Machine
end

