-- ==== Sys2Proof/Machine/Control.lean ====
section
/-! DEFINITION. Control transfer (40_control_flow.md): RET, SYS, JP, CALL, JP V0. -/

namespace Sys2Proof.Machine

/-- 00EE `RET` (R140). -/
def execRet (s : State) : Result :=
  match s.pop with
  | none => raise .stackUnderflow .ret s
  | some (target, s') => .next (s'.setPc target)

/-- 0nnn `SYS addr` under a value of `SYS_POLICY` (R107, R144, R145). -/
def execSysUnder (p : Config.Params) (nnn : Addr12) (s : State) : Result :=
  match p.sysPolicy with
  | .decodeError => raise .decodeError (.sys nnn) s
  | .noOp => .next s.advance

/-- 0nnn `SYS addr` (R144): on this hardware it raises DecodeError. -/
def execSys (nnn : Addr12) (s : State) : Result := execSysUnder Config.hardware nnn s

/-- 1nnn `JP addr` (R141). -/
def execJp (nnn : Addr12) (s : State) : Result := .next (s.setPc (zextAddr nnn))

/-- 2nnn `CALL addr` (R142). -/
def execCall (nnn : Addr12) (s : State) : Result :=
  match s.push (s.pc + 2#16) with
  | none => raise .stackOverflow (.call nnn) s
  | some s' => .next (s'.setPc (zextAddr nnn))

/-- Bnnn `JP V0, addr` under a value of `JUMP_OFFSET_REG` (R143): the sum is not reduced to 12 bits. -/
def execJpV0Under (p : Config.Params) (nnn : Addr12) (s : State) : Result :=
  .next (s.setPc (BitVec.ofNat 16 (nnn.toNat + (s.reg (jumpOffsetReg p.jumpOffsetReg nnn)).toNat)))

/-- Bnnn `JP V0, addr` (R143). -/
def execJpV0 (nnn : Addr12) (s : State) : Result := execJpV0Under Config.hardware nnn s

end Sys2Proof.Machine
end

