-- ==== Sys2Proof/Machine/IndexMemory.lean ====
section
/-! DEFINITION. The index register and memory transfer (43_index_memory.md). A memory access checks its whole range before anything
is written (20_memory.md R74). -/

namespace Sys2Proof.Machine

/-- Annn `LD I, addr` (R220). -/
def execLdI (nnn : Addr12) (s : State) : Result := .next (s.setI (zextAddr nnn)).advance

/-- Fx1E `ADD I, Vx` (R221): kept in 16 bits, no flag. -/
def execAddIVx (x : RegIdx) (s : State) : Result :=
  .next (s.setI (BitVec.ofNat 16 ((s.i.toNat + (s.reg x).toNat) % 65536))).advance

/-- Fx29 `LD F, Vx` under a value of `NIBBLE_OPERAND_POLICY` (R222). -/
def execLdFVxUnder (p : Config.Params) (x : RegIdx) (s : State) : Result :=
  match nibbleOperand p.nibblePolicy (s.reg x) with
  | .error b => raise (.operandOutOfRange b) (.ldFVx x) s
  | .ok d => .next (s.setI (BitVec.ofNat 16 (Config.fontBase + 5 * d.val))).advance

/-- Fx29 `LD F, Vx` (R222). -/
def execLdFVx (x : RegIdx) (s : State) : Result := execLdFVxUnder Config.hardware x s

/-- Fx33 `LD B, Vx` (R224). -/
def execLdBVx (x : RegIdx) (s : State) : Result :=
  match memWrite s.mem s.i.toNat (bcdDigits (s.reg x)) with
  | .error a => raise (.memoryOutOfRange a) (.ldBVx x) s
  | .ok m => .next (s.setMem m).advance

/-- Fx55 `LD [I], Vx` under a value of `MEM_I_INCREMENT` (R225). -/
def execLdMemVxUnder (p : Config.Params) (x : RegIdx) (s : State) : Result :=
  match memWrite s.mem s.i.toNat (s.regsUpTo x) with
  | .error a => raise (.memoryOutOfRange a) (.ldMemVx x) s
  | .ok m => .next ((s.setMem m).setI (indexAfter p.memIIncrement x s)).advance

/-- Fx55 `LD [I], Vx` (R225). -/
def execLdMemVx (x : RegIdx) (s : State) : Result := execLdMemVxUnder Config.hardware x s

/-- Fx65 `LD Vx, [I]` under a value of `MEM_I_INCREMENT` (R226). -/
def execLdVxMemUnder (p : Config.Params) (x : RegIdx) (s : State) : Result :=
  match memRead s.mem s.i.toNat (x.val + 1) with
  | .error a => raise (.memoryOutOfRange a) (.ldVxMem x) s
  | .ok bytes => .next ((s.setRegs bytes).setI (indexAfter p.memIIncrement x s)).advance

/-- Fx65 `LD Vx, [I]` (R226). -/
def execLdVxMem (x : RegIdx) (s : State) : Result := execLdVxMemUnder Config.hardware x s

end Sys2Proof.Machine
end

