-- ==== Sys2Proof/Machine/KeypadTimers.lean ====
section
/-! DEFINITION. The keypad and timer instructions (45_keypad_timers.md). The host's key and tick events are in HostEvents.lean. -/

namespace Sys2Proof.Machine

/-- Ex9E `SKP Vx` under a value of `NIBBLE_OPERAND_POLICY` (R270). -/
def execSkpUnder (p : Config.Params) (x : RegIdx) (s : State) : Result :=
  match nibbleOperand p.nibblePolicy (s.reg x) with
  | .error b => raise (.operandOutOfRange b) (.skp x) s
  | .ok k => .next (s.skipIf s.key[k.val])

/-- Ex9E `SKP Vx` (R270). -/
def execSkp (x : RegIdx) (s : State) : Result := execSkpUnder Config.hardware x s

/-- ExA1 `SKNP Vx` under a value of `NIBBLE_OPERAND_POLICY` (R271). -/
def execSknpUnder (p : Config.Params) (x : RegIdx) (s : State) : Result :=
  match nibbleOperand p.nibblePolicy (s.reg x) with
  | .error b => raise (.operandOutOfRange b) (.sknp x) s
  | .ok k => .next (s.skipIf (!s.key[k.val]))

/-- ExA1 `SKNP Vx` (R271). -/
def execSknp (x : RegIdx) (s : State) : Result := execSknpUnder Config.hardware x s

/-- Fx07 `LD Vx, DT` (R272). -/
def execLdVxDt (x : RegIdx) (s : State) : Result := .next (s.setReg x s.dt).advance

/-- Fx0A `LD Vx, K` (R275): the wait starts, and PC is not written. Its completion is the host's key-down (R277). -/
def execLdVxK (x : RegIdx) (s : State) : Result := .next (s.setRun (.awaitingKey x))

/-- Fx15 `LD DT, Vx` (R273). -/
def execLdDtVx (x : RegIdx) (s : State) : Result := .next (s.setDt (s.reg x)).advance

/-- Fx18 `LD ST, Vx` (R274). -/
def execLdStVx (x : RegIdx) (s : State) : Result := .next (s.setSt (s.reg x)).advance

end Sys2Proof.Machine
end

