-- ==== Sys2Proof/Machine/LoadArith.lean ====
section
/-! DEFINITION. Register loads, arithmetic and logic (42_load_arith.md). Operands are read at the start; a flag is written last
(R11, R203). -/

namespace Sys2Proof.Machine

/-- 6xkk `LD Vx, byte` (R180). -/
def execLdByte (x : RegIdx) (kk : Byte) (s : State) : Result := .next (s.setReg x kk).advance

/-- 7xkk `ADD Vx, byte` (R181): no flag. -/
def execAddByte (x : RegIdx) (kk : Byte) (s : State) : Result := .next (s.setReg x (addByte (s.reg x) kk)).advance

/-- 8xy0 `LD Vx, Vy` (R182). -/
def execLdReg (x y : RegIdx) (s : State) : Result := .next (s.setReg x (s.reg y)).advance

/-- 8xy1 `OR Vx, Vy` under a value of `LOGIC_VF_RESET` (R183). -/
def execOrRegUnder (p : Config.Params) (x y : RegIdx) (s : State) : Result :=
  .next (s.setLogicResult p.logicVfReset x (s.reg x ||| s.reg y)).advance

/-- 8xy1 `OR Vx, Vy` (R183). -/
def execOrReg (x y : RegIdx) (s : State) : Result := execOrRegUnder Config.hardware x y s

/-- 8xy2 `AND Vx, Vy` under a value of `LOGIC_VF_RESET` (R184). -/
def execAndRegUnder (p : Config.Params) (x y : RegIdx) (s : State) : Result :=
  .next (s.setLogicResult p.logicVfReset x (s.reg x &&& s.reg y)).advance

/-- 8xy2 `AND Vx, Vy` (R184). -/
def execAndReg (x y : RegIdx) (s : State) : Result := execAndRegUnder Config.hardware x y s

/-- 8xy3 `XOR Vx, Vy` under a value of `LOGIC_VF_RESET` (R185). -/
def execXorRegUnder (p : Config.Params) (x y : RegIdx) (s : State) : Result :=
  .next (s.setLogicResult p.logicVfReset x (s.reg x ^^^ s.reg y)).advance

/-- 8xy3 `XOR Vx, Vy` (R185). -/
def execXorReg (x y : RegIdx) (s : State) : Result := execXorRegUnder Config.hardware x y s

/-- 8xy4 `ADD Vx, Vy` (R186): VF is the carry. -/
def execAddReg (x y : RegIdx) (s : State) : Result :=
  .next (s.setResultFlag x (addByte (s.reg x) (s.reg y)) (carryFlag (s.reg x) (s.reg y))).advance

/-- 8xy5 `SUB Vx, Vy` (R187): VF is NOT borrow of Vx - Vy. -/
def execSubReg (x y : RegIdx) (s : State) : Result :=
  .next (s.setResultFlag x (subByte (s.reg x) (s.reg y)) (notBorrowFlag (s.reg x) (s.reg y))).advance

/-- 8xy6 `SHR Vx {, Vy}` under a value of `SHIFT_SOURCE` (R188). -/
def execShrUnder (p : Config.Params) (x y : RegIdx) (s : State) : Result :=
  .next (s.setResultFlag x (shrByte (shiftOperand p.shiftSource x y s)) (shrFlag (shiftOperand p.shiftSource x y s))).advance

/-- 8xy6 `SHR Vx {, Vy}` (R188). -/
def execShr (x y : RegIdx) (s : State) : Result := execShrUnder Config.hardware x y s

/-- 8xy7 `SUBN Vx, Vy` (R189): Vy - Vx, VF is NOT borrow. -/
def execSubnReg (x y : RegIdx) (s : State) : Result :=
  .next (s.setResultFlag x (subByte (s.reg y) (s.reg x)) (notBorrowFlag (s.reg y) (s.reg x))).advance

/-- 8xyE `SHL Vx {, Vy}` under a value of `SHIFT_SOURCE` (R190). -/
def execShlUnder (p : Config.Params) (x y : RegIdx) (s : State) : Result :=
  .next (s.setResultFlag x (shlByte (shiftOperand p.shiftSource x y s)) (shlFlag (shiftOperand p.shiftSource x y s))).advance

/-- 8xyE `SHL Vx {, Vy}` (R190). -/
def execShl (x y : RegIdx) (s : State) : Result := execShlUnder Config.hardware x y s

/-- Cxkk `RND Vx, byte` for a given draw (R200). -/
def execRndDraw (rnd : Byte) (x : RegIdx) (kk : Byte) (s : State) : Result := .next (s.setReg x (rnd &&& kk)).advance

/-- Cxkk `RND Vx, byte` (R200, R201): the draw is the next free value (log entry 2). -/
def execRnd (x : RegIdx) (kk : Byte) (s : State) : Result := execRndDraw (Config.rnd s.draws) x kk s.takeDraw

end Sys2Proof.Machine
end

