-- ==== Sys2Proof/Machine/Screen.lean ====
section
/-! DEFINITION. The display instructions (44_display.md): CLS and DRW. -/

namespace Sys2Proof.Machine

/-- 00E0 `CLS` (R251). -/
def execCls (s : State) : Result := .next (s.setDisp clearDisplay).advance

/-- Dxyn `DRW Vx, Vy, nibble` (R250): the coordinates are read before the VF write, and VF is written even for n = 0. -/
def execDrw (x y : RegIdx) (n : Nibble) (s : State) : Result :=
  match memRead s.mem s.i.toNat n.toNat with
  | .error a => raise (.memoryOutOfRange a) (.drw x y n) s
  | .ok rows =>
    let b := blitRows (s.reg x).toNat (s.reg y).toNat 0 rows ⟨s.disp, false⟩
    .next ((s.setDisp b.disp).setReg vf (flagOf b.coll)).advance

end Sys2Proof.Machine
end

