-- ==== Sys2Proof/Machine/Skip.lean ====
section
/-! DEFINITION. The conditional skips on registers (41_skip.md): SE and SNE. -/

namespace Sys2Proof.Machine

/-- 3xkk `SE Vx, byte` (R160). -/
def execSeByte (x : RegIdx) (kk : Byte) (s : State) : Result := .next (s.skipIf (s.reg x == kk))

/-- 4xkk `SNE Vx, byte` (R161). -/
def execSneByte (x : RegIdx) (kk : Byte) (s : State) : Result := .next (s.skipIf (s.reg x != kk))

/-- 5xy0 `SE Vx, Vy` (R162). -/
def execSeReg (x y : RegIdx) (s : State) : Result := .next (s.skipIf (s.reg x == s.reg y))

/-- 9xy0 `SNE Vx, Vy` (R163). -/
def execSneReg (x y : RegIdx) (s : State) : Result := .next (s.skipIf (s.reg x != s.reg y))

end Sys2Proof.Machine
end

