-- ==== Sys2Proof/Machine/Step.lean ====
section
/-! DEFINITION. One step of the CPU (30_encoding.md R108), and the placing of an instruction where the next step fetches it. -/

namespace Sys2Proof.Machine

/-- `single_step` (R108): held while a key is awaited, unchanged while faulted, else one fetch, decode and execute. -/
def step (s : State) : Host.Outcome State Fault Refusal := cycle exec s

/-- The state with an instruction's two bytes, bit 0 of `w` being bit 0 of the word, stored at the PC, high byte first (R76). A
state whose next step would fetch nothing is made one that fetches: the run state becomes Running, and a PC with no two bytes of
memory at it becomes the program origin (log entry 9). -/
def State.withFetchWord (s : State) (nbits w : Nat) : State :=
  let word : Word := BitVec.ofNat 16 (w % 2 ^ nbits)
  let pc : Word := if s.pc.toNat + 1 ≤ 0xFFF then s.pc else 0x0200#16
  { s with
    pc := pc,
    run := .running,
    mem := s.mem.writeList pc.toNat [hiByte word, loByte word] }

end Sys2Proof.Machine
end

