-- ==== Sys2Proof/Machine/Policies.lean ====
section
/-! DEFINITION. The machine under any value of the parameters of 00_scope.md R8. `exec` and `step` are this hardware's; here a
parameter's alternative reaches the instructions that read it, and every other instruction is as in `exec`. -/

namespace Sys2Proof.Machine

/-- The execution of an instruction under given parameters (R8). -/
def execUnder (p : Config.Params) (i : Instr) (s : State) : Result :=
  match i with
  | .sys nnn => execSysUnder p nnn s
  | .jpV0 nnn => execJpV0Under p nnn s
  | .orReg x y => execOrRegUnder p x y s
  | .andReg x y => execAndRegUnder p x y s
  | .xorReg x y => execXorRegUnder p x y s
  | .shr x y => execShrUnder p x y s
  | .shl x y => execShlUnder p x y s
  | .skp x => execSkpUnder p x s
  | .sknp x => execSknpUnder p x s
  | .ldFVx x => execLdFVxUnder p x s
  | .ldMemVx x => execLdMemVxUnder p x s
  | .ldVxMem x => execLdVxMemUnder p x s
  | .cls | .ret | .jp _ | .call _ | .seByte _ _ | .sneByte _ _ | .seReg _ _ | .ldByte _ _ | .addByte _ _ | .ldReg _ _
  | .addReg _ _ | .subReg _ _ | .subnReg _ _ | .sneReg _ _ | .ldI _ | .rnd _ _ | .drw _ _ _ | .ldVxDt _ | .ldVxK _
  | .ldDtVx _ | .ldStVx _ | .addIVx _ | .ldBVx _ => exec i s

/-- The execution with the step's random draw given, under given parameters: `Execute(ins, w, rnd)` of R108, where only Cxkk reads
the draw (R201). -/
def execDraw (p : Config.Params) (rnd : Byte) (i : Instr) (s : State) : Result :=
  match i with
  | .rnd x kk => execRndDraw rnd x kk s
  | _ => execUnder p i s

/-- `Step(rnd)` of R108 under given parameters and a given draw. -/
def stepDraw (p : Config.Params) (rnd : Byte) (s : State) : Result := cycle (execDraw p rnd) s

end Sys2Proof.Machine
end

