-- ==== Sys2Proof/Machine/HostEvents.lean ====
section
/-! DEFINITION. The host's side of the interface (60_exceptions.md R320 to R329, 70_reset_and_hazards.md R350 to R353): each operation
is one atomic function of the state, and `Event` gives every interleaving of them with CPU steps (00_scope.md R7, log entry 10). -/

namespace Sys2Proof.Machine

/-! ### Reset and load -/

/-- `Reset()` of R350 on a given state: construction's values, but the keypad latch is kept (R47), and so is the model's own count
of random draws (log entry 2). -/
def State.resetCore (p : Config.Params) (s : State) : State :=
  { State.resetUnder p with key := s.key, draws := s.draws }

/-- The response of `load` (R328). -/
inductive LoadResponse where
  | ok
  /-- R352, with the length of the ROM. -/
  | romTooLarge (len : Nat)
deriving DecidableEq, Repr

/-- The fault a load response reports (R300). -/
def LoadResponse.fault : LoadResponse → Option Fault
  | .ok => none
  | .romTooLarge _ => some .romTooLarge

/-- `Load(rom)` of R351 and R352 under given parameters. -/
def loadUnder (p : Config.Params) (rom : List Byte) (s : State) : LoadResponse × State :=
  if rom.length > Config.romMax then (.romTooLarge rom.length, s)
  else (.ok, (s.resetCore p).setMem ((s.resetCore p).mem.writeList Config.programOrigin rom))

/-- `Load(rom)` of R351 and R352. It is the only thing that clears a fault (R305). -/
def load (rom : List Byte) (s : State) : LoadResponse × State := loadUnder Config.hardware rom s

/-! ### Ticks and keys -/

/-- A timer's decrement toward zero (R320). -/
def tickTimer (b : Byte) : Byte := if b.toNat > 0 then BitVec.ofNat 8 (b.toNat - 1) else b

/-- `Tick()` of R320: both timers, in any run state. -/
def tick (s : State) : State := (s.setDt (tickTimer s.dt)).setSt (tickTimer s.st)

/-- Key[k] <- b (R325). -/
def State.setKey (s : State) (k : KeyIdx) (b : Bool) : State := { s with key := s.key.set k.val b }

/-- `KeyDown(k)` of R325: it ends a wait when the key was up (R277), else it only sets the latch. -/
def keyDown (k : KeyIdx) (s : State) : State :=
  match s.run with
  | .awaitingKey x =>
    if s.key[k.val] then s.setKey k true
    else (((s.setKey k true).setReg x (BitVec.ofNat 8 k.val)).advance).setRun .running
  | .running => s.setKey k true
  | .faulted _ => s.setKey k true

/-- `KeyUp(k)` of R325. -/
def keyUp (k : KeyIdx) (s : State) : State := s.setKey k false

/-! ### Readbacks, none of which has a side effect (R327, D36) -/

/-- `is_set(px, py)` (R327): a coordinate outside the grid is no operation of the interface and is refused. -/
def isSet (px py : Nat) (s : State) : Except Refusal Bool :=
  if h : px < 64 ∧ py < 32 then .ok (s.disp.pixel ⟨px, h.1⟩ ⟨py, h.2⟩) else .error .readbackOutsideGrid

/-- `is_pressed(k)` (R326). -/
def isPressed (k : KeyIdx) (s : State) : Bool := s.key[k.val]

/-- `sound_active` (R322). -/
def soundActive (s : State) : Bool := s.st != 0#8

/-- `status` (R328). THE MODEL'S CHOICE (log entry 17): R328's table lists AwaitingKey without the wait's register, and this status
shows it. -/
def status (s : State) : RunState := s.run

/-! ### single_step with its response -/

/-- The response of `single_step` (R328). -/
inductive StepResponse where
  | ok
  | waiting
  | fault (f : FaultRecord)
deriving DecidableEq, Repr

/-- The response to a step from s to t: Waiting for a held step (R108), the fault where the core is faulted after it (R303, R305),
else Ok (log entry 7). -/
def stepResponse (s t : State) : StepResponse :=
  match s.run, t.run with
  | .awaitingKey _, _ => .waiting
  | _, .faulted f => .fault f
  | _, _ => .ok

/-- `single_step()` of R328: the response and the state. -/
def singleStep (s : State) : StepResponse × State :=
  match step s with
  | .next t => (stepResponse s t, t)
  | .fault _ => (.ok, s)
  | .refused _ => (.ok, s)

/-! ### Every interleaving -/

/-- One action on the core (R7). -/
inductive Event where
  | cpuStep
  | tick
  | keyDown (k : KeyIdx)
  | keyUp (k : KeyIdx)
  | load (rom : List Byte)
deriving DecidableEq, Repr

/-- The state after one action. -/
def Event.apply : Event → State → State
  | .cpuStep, s => (singleStep s).2
  | .tick, s => Machine.tick s
  | .keyDown k, s => Machine.keyDown k s
  | .keyUp k, s => Machine.keyUp k s
  | .load rom, s => (Machine.load rom s).2

/-- The state after a sequence of actions in the order the host gives them (R7, R278). -/
def runEvents (es : List Event) (s : State) : State := es.foldl (fun t e => e.apply t) s

/-- The part of `execute()` that the interface needs (R6, R304): a schedule of actions that stops at the first failure that is
reported, by a step or by a load. -/
def execute : List Event → State → State
  | [], s => s
  | .cpuStep :: rest, s =>
    match singleStep s with
    | (.fault _, t) => t
    | (.ok, t) => execute rest t
    | (.waiting, t) => execute rest t
  | .load rom :: rest, s =>
    match load rom s with
    | (.romTooLarge _, t) => t
    | (.ok, t) => execute rest t
  | .tick :: rest, s => execute rest (tick s)
  | .keyDown k :: rest, s => execute rest (keyDown k s)
  | .keyUp k :: rest, s => execute rest (keyUp k s)

end Sys2Proof.Machine
end

