-- ==== Sys2Proof/Safety.lean ====
section
/-! DEFINITION. What a safe run is, the invariant of the machine, and the words the statements use: frames, the pixels a sprite
covers, the faults an instruction can raise. -/

namespace Sys2Proof.Machine

/-! ### Safe runs -/

/-- No fault is latched (10_state.md R48; 60_exceptions.md R333: a run ends when one is). -/
def State.Unfaulted (s : State) : Prop := ∀ f, s.run ≠ .faulted f

/-- The word that stands at PC, none where the fetch faults (20_memory.md R76). -/
def State.wordAtPc (s : State) : Option Word :=
  match fetch16 s.mem s.pc.toNat with
  | .ok w => some w
  | .error _ => none

/-! ### The invariant -/

/-- A latched fault record says what it should (10_state.md R50, 60_exceptions.md R300, R303): its pc is PC, its word is the word
that stands there, and its other fields are those of its kind. A step never latches RomTooLarge. -/
def FaultRecord.Fits (f : FaultRecord) (s : State) : Prop :=
  f.pc = s.pc ∧ f.word = s.wordAtPc ∧
  match f.kind with
  | .decodeError => (∃ w, f.word = some w ∧ illegalWord Config.hardware.sysPolicy w = true) ∧ f.addr = none ∧ f.value = none
  | .memoryOutOfRange => (∃ a, f.addr = some a ∧ 0x1000 ≤ a ∧ a < 0x10010) ∧ f.value = none
  | .stackUnderflow => f.word = some 0x00EE#16 ∧ s.sp.val = 0 ∧ f.addr = none ∧ f.value = none
  | .stackOverflow => (∃ nnn : Addr12, f.word = some (0x2#4 ++ nnn)) ∧ s.sp.val = 16 ∧ f.addr = none ∧ f.value = none
  | .operandOutOfRange => (∃ v, f.value = some v ∧ 0xF < v.toNat) ∧ (∃ w, f.word = some w) ∧ f.addr = none
  | .romTooLarge => False

/-- What the run state promises: a wait stands at an Fx0A of memory that names its register (R48, R275), a latched fault fits. -/
def State.RunFits (s : State) : Prop :=
  match s.run with
  | .running => True
  | .awaitingKey x => s.wordAtPc = some (0xF#4 ++ regBits x ++ 0x0A#8)
  | .faulted f => f.Fits s

/-- The invariant of the machine. -/
structure State.Inv (s : State) : Prop where
  /-- Memory is in its canonical form. -/
  mem_wf : s.mem.wf = true
  /-- PC never wraps and is at most 0x10FE (10_state.md R38). -/
  pc_le : s.pc.toNat ≤ 0x10FE
  /-- A return address on the stack is at most 0x1000 (R38). -/
  ret_le : ∀ j : Fin 16, j.val < s.sp.val → s.stack[j.val].toNat ≤ 0x1000
  /-- The run state fits the rest. -/
  run_fits : s.RunFits

/-! ### The formats of 30_encoding.md R101, as words -/

/-- Format `NNN`. -/
abbrev formatNNN (op : Nibble) (nnn : Addr12) : Word := op ++ nnn
/-- Formats `XKK` and `XS`: the low byte is kk or the sub-selector. -/
abbrev formatXKK (op : Nibble) (x : RegIdx) (kk : Byte) : Word := op ++ regBits x ++ kk
/-- Formats `XYN`, `XYS` and `XY0`: the low nibble is n, the sub-selector or 0. -/
abbrev formatXYN (op : Nibble) (x y : RegIdx) (n : Nibble) : Word := op ++ regBits x ++ regBits y ++ n

/-! ### Frames -/

/-- From s to t nothing changes but the registers listed and PC, which advances by 2. -/
def RegsOnly (s t : State) (dests : List RegIdx) : Prop :=
  t = { s with v := t.v, pc := s.pc + 2#16 } ∧ ∀ k, k ∉ dests → t.reg k = s.reg k

/-- From s to t nothing changes but PC, which becomes `target`. -/
def PcOnly (s t : State) (target : Word) : Prop := t = { s with pc := target }

/-- From s to t nothing changes but Run, which becomes Faulted(f) (60_exceptions.md R303). -/
def FaultsWith (s t : State) (f : FaultRecord) : Prop := t = { s with run := .faulted f }

/-! ### The pixels a sprite covers (44_display.md R250, R252) -/

/-- Whether a sprite at (x0, y0) has a set bit for the pixel at (px, py): sprite bit c of row r is drawn at column x0 + c mod 64 and
row y0 + r mod 32, and bit 7 - c of the row's byte is the one drawn. -/
def SpriteCovers (rows : List Byte) (x0 y0 : Nat) (px : Fin 64) (py : Fin 32) : Prop :=
  ∃ r c : Nat, c < 8 ∧ (∃ h : r < rows.length, rows[r].getLsbD (7 - c) = true) ∧
    px.val = (x0 + c) % 64 ∧ py.val = (y0 + r) % 32

end Sys2Proof.Machine

namespace Sys2Proof

/-! ### The faults of R301 -/

/-- The kind of fault an instruction's rule lists under its exceptions (60_exceptions.md R301), none where it raises nothing at
execute, as DRW with n = 0 (R250). SYS is illegal on this hardware, so its fault is DecodeError (R107). -/
def Instr.faultKind : Instr → Option Machine.Fault
  | .sys _ => some .decodeError
  | .ret => some .stackUnderflow
  | .call _ => some .stackOverflow
  | .drw _ _ n => if n = 0#4 then none else some .memoryOutOfRange
  | .ldBVx _ | .ldMemVx _ | .ldVxMem _ => some .memoryOutOfRange
  | .skp _ | .sknp _ | .ldFVx _ => some .operandOutOfRange
  | .cls | .jp _ | .jpV0 _ | .seByte _ _ | .sneByte _ _ | .seReg _ _ | .sneReg _ _ | .ldByte _ _ | .addByte _ _ | .ldReg _ _
  | .orReg _ _ | .andReg _ _ | .xorReg _ _ | .addReg _ _ | .subReg _ _ | .shr _ _ | .subnReg _ _ | .shl _ _ | .ldI _ | .rnd _ _
  | .ldVxDt _ | .ldVxK _ | .ldDtVx _ | .ldStVx _ | .addIVx _ => none

/-! ### Which instruction may write which state (10_state.md R31, R32, R34, R40, R43, R44, R46, R51; 20_memory.md R71) -/

/-- The instructions that write VF as a side effect on this hardware, where `LOGIC_VF_RESET` is false (R31). -/
def Instr.writesFlag : Instr → Bool
  | .addReg _ _ | .subReg _ _ | .shr _ _ | .subnReg _ _ | .shl _ _ | .drw _ _ _ => true
  | _ => false

/-- Whether an instruction names register k as a destination (R32). -/
def Instr.hasDest (k : RegIdx) : Instr → Bool
  | .ldByte x _ | .addByte x _ | .ldReg x _ | .orReg x _ | .andReg x _ | .xorReg x _ | .addReg x _ | .subReg x _ | .shr x _
  | .subnReg x _ | .shl x _ | .rnd x _ | .ldVxDt x => k == x
  | .ldVxMem x => decide (k ≤ x)
  | _ => false

/-- The instructions that write I on this hardware, where `MEM_I_INCREMENT` is false (R34). -/
def Instr.writesI : Instr → Bool
  | .ldI _ | .addIVx _ | .ldFVx _ => true
  | _ => false

/-- The instructions that write the stack (R40). -/
def Instr.writesStack : Instr → Bool
  | .call _ | .ret => true
  | _ => false

/-- The instruction that writes DT (R43). -/
def Instr.writesDt : Instr → Bool
  | .ldDtVx _ => true
  | _ => false

/-- The instruction that writes ST (R44). -/
def Instr.writesSt : Instr → Bool
  | .ldStVx _ => true
  | _ => false

/-- The instructions that change the display (R51). -/
def Instr.writesDisplay : Instr → Bool
  | .cls | .drw _ _ _ => true
  | _ => false

/-- The addresses an instruction stores to in a state: 3 bytes at I for Fx33, x + 1 bytes at I for Fx55, none else (20_memory.md
R71). -/
def Instr.storesTo (s : Machine.State) (a : Nat) : Instr → Bool
  | .ldBVx _ => decide (s.i.toNat ≤ a ∧ a < s.i.toNat + 3)
  | .ldMemVx x => decide (s.i.toNat ≤ a ∧ a < s.i.toNat + (x.val + 1))
  | _ => false

end Sys2Proof
end

