-- ==== Sys2Proof/Certificates/Slice0/Obligations.lean ====
section
/-! DEFINITION. The statements for the provers. Each docstring names the rule of spec/ it formalises. A statement about a result says
the whole next state: the registers it lists, and everything else unchanged by a record equality. -/

open Sys2Proof Sys2Proof.Machine

/-! ### Encoding (30_encoding.md) -/

/-- Decoding the word of a well-formed instruction gives it back, whatever its operands (R101, R105). -/
def Obligations.DecodeOfEncodeIsTheInstruction : Prop :=
  ∀ i : Instr, i.wellFormed = true → decode (encode i) = .ok i

/-- A word that decodes has the instruction's own word: every bit is an opcode bit or an operand bit (R106). -/
def Obligations.EncodeOfDecodeIsTheWord : Prop :=
  ∀ (w : Word) (i : Instr), decode w = .ok i → encode i = w ∧ i.wellFormed = true

/-- Decoding follows the rows of spec/opcode_table.json: a decoded word stands in its instruction's row, and a word that stands in a
row decodes to an instruction of that row, but for CLS and RET, which take priority over SYS (R105). -/
def Obligations.DecodeFollowsTheOpcodeTable : Prop :=
  (∀ (w : Word) (i : Instr), decode w = .ok i → (tableRow i).has w = true) ∧
  (∀ (i : Instr) (w : Word), (tableRow i).has w = true →
    ∃ j, decode w = .ok j ∧ (tableRow j = tableRow i ∨ (w = 0x00E0#16 ∧ j = .cls) ∨ (w = 0x00EE#16 ∧ j = .ret)))

/-- The illegal words are the five shapes of R106, and under `SYS_POLICY = DecodeError` the SYS words too (R106, R107). The counts of
R106 are not spoken of. -/
def Obligations.IllegalWordsAreTheListedShapes : Prop :=
  (∀ w : Word, illegalWord .noOp w = true ↔
    ((opOf w).toNat = 0x5 ∧ (nOf w).toNat ≠ 0) ∨
    ((opOf w).toNat = 0x8 ∧ (nOf w).toNat ∈ [0x8, 0x9, 0xA, 0xB, 0xC, 0xD, 0xF]) ∨
    ((opOf w).toNat = 0x9 ∧ (nOf w).toNat ≠ 0) ∨
    ((opOf w).toNat = 0xE ∧ (kkOf w).toNat ∉ [0x9E, 0xA1]) ∨
    ((opOf w).toNat = 0xF ∧ (kkOf w).toNat ∉ [0x07, 0x0A, 0x15, 0x18, 0x1E, 0x29, 0x33, 0x55, 0x65])) ∧
  (∀ w : Word, illegalWord .decodeError w = true ↔
    illegalWord .noOp w = true ∨ ((opOf w).toNat = 0 ∧ w ≠ 0x00E0#16 ∧ w ≠ 0x00EE#16))

/-- The two-level decode through the 16-entry table DROM is the decode function (R103, R104, R105). -/
def Obligations.DecodeThroughDromIsDecode : Prop :=
  ∀ w : Word, decodeViaDrom w = decode w

/-- Words written out from the formats decode to the instructions they stand for, one or more for each family (R101, R105). THE MODEL'S
CHOICE (log entry 3) is the clause on 0123: R107 has decode raise DecodeError on a SYS word on this hardware, and the model decodes it to
`.sys`, whose meaning raises it. -/
def Obligations.WrittenOutWordsDecode : Prop :=
  decode 0x00E0#16 = .ok .cls ∧ decode 0x00EE#16 = .ok .ret ∧ decode 0x0123#16 = .ok (.sys 0x123#12) ∧
  decode 0x1ABC#16 = .ok (.jp 0xABC#12) ∧ decode 0x2400#16 = .ok (.call 0x400#12) ∧
  decode 0x3A42#16 = .ok (.seByte 10 0x42#8) ∧ decode 0x4A42#16 = .ok (.sneByte 10 0x42#8) ∧
  decode 0x5120#16 = .ok (.seReg 1 2) ∧ decode 0x5121#16 = .error (.illegal 0x5121#16) ∧
  decode 0x6AFF#16 = .ok (.ldByte 10 0xFF#8) ∧ decode 0x7AB1#16 = .ok (.addByte 10 0xB1#8) ∧
  decode 0x8AB5#16 = .ok (.subReg 10 11) ∧ decode 0x8128#16 = .error (.illegal 0x8128#16) ∧
  decode 0x9AB0#16 = .ok (.sneReg 10 11) ∧ decode 0x9AB1#16 = .error (.illegal 0x9AB1#16) ∧
  decode 0xAFFF#16 = .ok (.ldI 0xFFF#12) ∧ decode 0xB123#16 = .ok (.jpV0 0x123#12) ∧
  decode 0xC30F#16 = .ok (.rnd 3 0x0F#8) ∧ decode 0xD015#16 = .ok (.drw 0 1 5#4) ∧
  decode 0xE09E#16 = .ok (.skp 0) ∧ decode 0xE09F#16 = .error (.illegal 0xE09F#16) ∧
  decode 0xF229#16 = .ok (.ldFVx 2) ∧ decode 0xF30A#16 = .ok (.ldVxK 3)

/-! ### The fetch and the step cycle (20_memory.md, 30_encoding.md, 60_exceptions.md) -/

/-- The fetch is big-endian, and where PC + 1 leaves memory it faults before anything else, with no word recorded (R76). -/
def Obligations.FetchIsBigEndianAndChecked : Prop :=
  (∀ (m : Memory) (pc : Nat), pc + 1 ≤ 0xFFF →
    ∃ w, fetch16 m pc = .ok w ∧ w.toNat = (m.read pc).toNat * 256 + (m.read (pc + 1)).toNat) ∧
  (∀ s : State, s.run = .running → 0x0FFF ≤ s.pc.toNat →
    ∃ t, step s = .next t ∧ FaultsWith s t ⟨.memoryOutOfRange, s.pc, none, some (max s.pc.toNat 0x1000), none⟩)

/-- When the two bytes at PC decode to an instruction, a step of a running core is `exec` of it (R108). -/
def Obligations.StepRunsTheDecodedInstruction : Prop :=
  ∀ (s : State) (i : Instr), s.run = .running → s.pc.toNat ≤ 0xFFE →
    decode (s.mem.read s.pc.toNat ++ s.mem.read (s.pc.toNat + 1)) = .ok i → step s = exec i s

/-- A step on an illegal word, SYS words among them on this hardware, faults with DecodeError and that word (R105, R106, R107). -/
def Obligations.IllegalWordFaults : Prop :=
  ∀ (s : State) (w : Word), s.run = .running → s.pc.toNat ≤ 0xFFE →
    s.mem.read s.pc.toNat ++ s.mem.read (s.pc.toNat + 1) = w → illegalWord Config.hardware.sysPolicy w = true →
    ∃ t, step s = .next t ∧ FaultsWith s t ⟨.decodeError, s.pc, some w, none, none⟩

/-- A step while a key is awaited changes nothing and reports waiting; a step while faulted changes nothing and reports the fault
again (R108, R305). -/
def Obligations.HeldAndFaultedStepsChangeNothing : Prop :=
  (∀ (s : State) (x : RegIdx), s.run = .awaitingKey x → step s = .next s ∧ singleStep s = (.waiting, s)) ∧
  (∀ (s : State) (f : FaultRecord), s.run = .faulted f → step s = .next s ∧ singleStep s = (.fault f, s))

/-- THE MODEL'S CHOICE (log entry 1): every step answers a next state, since a fault is an entry into Run = Faulted(f). -/
def Obligations.EveryStepAnswersANextState : Prop :=
  ∀ s : State, ∃ t, step s = .next t

/-- Faults are precise: a step that faults writes Run and nothing else, the record fits the state, an out-of-range address is the lowest
one of the access, from PC at the fetch and from I at execute, an out-of-range value is that of Vx, and `single_step` returns the record
(R303; the record's fields: R300; the address: R74, R76, R302; the value: R223). -/
def Obligations.FaultsArePrecise : Prop :=
  ∀ (s t : State) (f : FaultRecord), s.run = .running → step s = .next t → t.run = .faulted f →
    FaultsWith s t f ∧ f.Fits t ∧
    (f.kind = .memoryOutOfRange → f.addr = some (max (if f.word = none then s.pc.toNat else s.i.toNat) 0x1000)) ∧
    (f.kind = .operandOutOfRange → ∃ w, f.word = some w ∧ f.value = some (s.reg (xOf w))) ∧
    singleStep s = (.fault f, t)

/-- The faults an instruction can raise at execute are exactly the kind its rule lists, and each listed one can be raised (R301). -/
def Obligations.InstructionsRaiseTheListedFaults : Prop :=
  (∀ (i : Instr) (s t : State) (f : FaultRecord), s.run = .running → exec i s = .next t → t.run = .faulted f →
    i.faultKind = some f.kind) ∧
  (∀ (i : Instr) (k : Fault), i.faultKind = some k →
    ∃ s t f, s.run = .running ∧ exec i s = .next t ∧ t.run = .faulted f ∧ f.kind = k)

/-! ### The invariant and reset -/

/-- The invariant holds at reset. -/
def Obligations.InvHoldsAtReset : Prop := State.reset.Inv

/-- Every step keeps the invariant: memory stays canonical, PC stays at most 0x10FE, return addresses at most 0x1000, a wait stands at
its Fx0A, and a latched fault record fits (R38, R48, R50). -/
def Obligations.StepKeepsInv : Prop :=
  ∀ s t : State, s.Inv → step s = .next t → t.Inv

/-- Every sequence of steps, ticks, key events and loads, in any order, keeps the invariant (R7, R38, R50). -/
def Obligations.EveryInterleavingKeepsInv : Prop :=
  ∀ (es : List Event) (s : State), s.Inv → (runEvents es s).Inv

/-- The state after reset has the values of the rules: registers, timers, keys and pixels 0, PC = 0x200, the stack empty, Running, and
memory 0 but for the font (R33, R35, R39, R42, R45, R47, R49, R52, R54). The unread stack entries are not spoken of. -/
def Obligations.ResetValues : Prop :=
  (∀ x, State.reset.reg x = 0#8) ∧ State.reset.i = 0#16 ∧ State.reset.pc = 0x200#16 ∧ State.reset.sp.val = 0 ∧
  State.reset.dt = 0#8 ∧ State.reset.st = 0#8 ∧ (∀ k : KeyIdx, State.reset.key[k.val] = false) ∧
  (∀ px py, State.reset.disp.pixel px py = false) ∧ State.reset.run = .running ∧
  (∀ a, 80 ≤ a → State.reset.mem.read a = 0#8) ∧
  State.reset.mem.readList 0 80 =
    [0xF0, 0x90, 0x90, 0x90, 0xF0, 0x20, 0x60, 0x20, 0x20, 0x70, 0xF0, 0x10, 0xF0, 0x80, 0xF0, 0xF0, 0x10, 0xF0, 0x10, 0xF0] ++
    [0x90, 0x90, 0xF0, 0x10, 0x10, 0xF0, 0x80, 0xF0, 0x10, 0xF0, 0xF0, 0x80, 0xF0, 0x90, 0xF0, 0xF0, 0x10, 0x20, 0x40, 0x40] ++
    [0xF0, 0x90, 0xF0, 0x90, 0xF0, 0xF0, 0x90, 0xF0, 0x10, 0xF0, 0xF0, 0x90, 0xF0, 0x90, 0x90, 0xE0, 0x90, 0xE0, 0x90, 0xE0] ++
    [0xF0, 0x80, 0x80, 0x80, 0xF0, 0xE0, 0x90, 0x90, 0x90, 0xE0, 0xF0, 0x80, 0xF0, 0x80, 0xF0, 0xF0, 0x80, 0xF0, 0x80, 0x80]

/-! ### What no instruction changes but those named -/

/-- Every byte of memory but those Fx33 and Fx55 store to reads as before, and memory stays canonical (R71, R75, R86). -/
def Obligations.OnlyStoresChangeMemory : Prop :=
  ∀ (i : Instr) (s t : State), s.mem.wf = true → exec i s = .next t →
    t.mem.wf = true ∧ ∀ a, i.storesTo s a = false → t.mem.read a = s.mem.read a

/-- A register changes only where the instruction names it as destination, or where it is VF and the instruction writes the flag
(R31, R32). -/
def Obligations.RegistersChangeOnlyAsNamed : Prop :=
  ∀ (i : Instr) (s t : State) (k : RegIdx), exec i s = .next t → i.hasDest k = false → (k = vf → i.writesFlag = false) →
    t.reg k = s.reg k

/-- I, the stack, DT, ST and the display change only by the instructions the rules name, and no instruction changes the keypad latch
(R34, R40, R43, R44, R46, R51). -/
def Obligations.SpecialStateChangesOnlyAsNamed : Prop :=
  ∀ (i : Instr) (s t : State), exec i s = .next t →
    (i.writesI = false → t.i = s.i) ∧ (i.writesStack = false → t.stack = s.stack ∧ t.sp = s.sp) ∧
    (i.writesDt = false → t.dt = s.dt) ∧ (i.writesSt = false → t.st = s.st) ∧
    (i.writesDisplay = false → t.disp = s.disp) ∧ t.key = s.key

/-- A store to the bytes that follow the instruction is what the very next fetch reads (R89, R357). -/
def Obligations.StoreIsSeenByTheNextFetch : Prop :=
  ∀ (x : RegIdx) (s : State), s.mem.wf = true → 1 ≤ x.val → s.i = s.pc + 2#16 → s.i.toNat + x.val ≤ 0xFFF →
    ∃ t, exec (.ldMemVx x) s = .next t ∧ t.wordAtPc = some (s.reg 0 ++ s.reg 1)

/-! ### Control transfer (40_control_flow.md) -/

/-- `RET` (R140). -/
def Obligations.RetPopsOrUnderflows : Prop :=
  decode 0x00EE#16 = .ok .ret ∧
  (∀ s : State, 0 < s.sp.val → ∃ t, exec .ret s = .next t ∧
    t = { s with pc := s.stack[s.sp.val - 1], sp := t.sp } ∧ t.sp.val = s.sp.val - 1) ∧
  (∀ s : State, s.sp.val = 0 → ∃ t, exec .ret s = .next t ∧
    FaultsWith s t ⟨.stackUnderflow, s.pc, some 0x00EE#16, none, none⟩)

/-- `JP addr` (R141). -/
def Obligations.JpSetsPc : Prop :=
  ∀ (nnn : Addr12) (s : State), decode (formatNNN 0x1#4 nnn) = .ok (.jp nnn) ∧
    ∃ t, exec (.jp nnn) s = .next t ∧ PcOnly s t t.pc ∧ t.pc.toNat = nnn.toNat

/-- `CALL addr` (R142). -/
def Obligations.CallPushesOrOverflows : Prop :=
  (∀ nnn : Addr12, decode (formatNNN 0x2#4 nnn) = .ok (.call nnn)) ∧
  (∀ (nnn : Addr12) (s : State), s.sp.val < 16 → ∃ t, exec (.call nnn) s = .next t ∧
    t = { s with pc := t.pc, stack := t.stack, sp := t.sp } ∧ t.pc.toNat = nnn.toNat ∧ t.sp.val = s.sp.val + 1 ∧
    ∀ j : Fin 16, t.stack[j.val] = if j.val = s.sp.val then s.pc + 2#16 else s.stack[j.val]) ∧
  (∀ (nnn : Addr12) (s : State), s.sp.val = 16 → ∃ t, exec (.call nnn) s = .next t ∧
    FaultsWith s t ⟨.stackOverflow, s.pc, some (formatNNN 0x2#4 nnn), none, none⟩)

/-- A CALL to an address that holds RET, then that RET: two steps that leave PC + 2 and the stack as it was (R146). -/
def Obligations.CallThenRetAdvancesByTwo : Prop :=
  ∀ (s : State) (nnn : Addr12), s.run = .running → s.sp.val < 16 → s.wordAtPc = some (formatNNN 0x2#4 nnn) →
    fetch16 s.mem nnn.toNat = .ok 0x00EE#16 →
    ∃ t u, step s = .next t ∧ step t = .next u ∧ u.pc = s.pc + 2#16 ∧ u.sp = s.sp ∧
      (∀ j : Fin 16, j.val < s.sp.val → u.stack[j.val] = s.stack[j.val]) ∧ u = { s with pc := u.pc, stack := u.stack }

/-- `JP V0, addr` under each value of `JUMP_OFFSET_REG`, and on this hardware: the sum is not reduced to 12 bits (R143). -/
def Obligations.JpV0AddsTheOffset : Prop :=
  (∀ nnn : Addr12, decode (formatNNN 0xB#4 nnn) = .ok (.jpV0 nnn)) ∧
  (∀ (nnn : Addr12) (s : State), ∃ t, exec (.jpV0 nnn) s = .next t ∧ PcOnly s t t.pc ∧
    t.pc.toNat = nnn.toNat + (s.reg 0).toNat) ∧
  (∀ (p : Config.Params) (nnn : Addr12) (s : State), p.jumpOffsetReg = .v0 →
    ∃ t, execUnder p (.jpV0 nnn) s = .next t ∧ PcOnly s t t.pc ∧ t.pc.toNat = nnn.toNat + (s.reg 0).toNat) ∧
  (∀ (p : Config.Params) (nnn : Addr12) (s : State), p.jumpOffsetReg = .vx →
    ∃ t, execUnder p (.jpV0 nnn) s = .next t ∧ PcOnly s t t.pc ∧
      ∀ x : RegIdx, x.val = nnn.toNat / 256 → t.pc.toNat = nnn.toNat + (s.reg x).toNat)

/-- `SYS addr`: DecodeError on this hardware, and PC + 2 and nothing else under `SYS_POLICY = NoOp` (R144, R145). -/
def Obligations.SysFaultsOrOnlyAdvances : Prop :=
  (∀ nnn : Addr12, nnn ≠ 0x0E0#12 → nnn ≠ 0x0EE#12 → decode (formatNNN 0x0#4 nnn) = .ok (.sys nnn)) ∧
  (∀ (nnn : Addr12) (s : State), ∃ t, exec (.sys nnn) s = .next t ∧
    FaultsWith s t ⟨.decodeError, s.pc, some (formatNNN 0x0#4 nnn), none, none⟩) ∧
  (∀ (p : Config.Params) (nnn : Addr12) (s : State), p.sysPolicy = .noOp →
    ∃ t, execUnder p (.sys nnn) s = .next t ∧ PcOnly s t (s.pc + 2#16))

/-! ### Skips (41_skip.md, 45_keypad_timers.md) -/

/-- `SE` and `SNE`, with a byte and with a register: PC + 4 where the condition holds, PC + 2 otherwise, nothing else; families 5 and 9
with a nonzero low nibble are illegal (R160 to R163). -/
def Obligations.RegisterSkips : Prop :=
  ∀ (x y : RegIdx) (kk : Byte) (s : State),
    (decode (formatXKK 0x3#4 x kk) = .ok (.seByte x kk) ∧
      ∃ t, exec (.seByte x kk) s = .next t ∧ PcOnly s t (if s.reg x = kk then s.pc + 4#16 else s.pc + 2#16)) ∧
    (decode (formatXKK 0x4#4 x kk) = .ok (.sneByte x kk) ∧
      ∃ t, exec (.sneByte x kk) s = .next t ∧ PcOnly s t (if s.reg x ≠ kk then s.pc + 4#16 else s.pc + 2#16)) ∧
    (decode (formatXYN 0x5#4 x y 0#4) = .ok (.seReg x y) ∧
      (∀ n, n ≠ 0#4 → decode (formatXYN 0x5#4 x y n) = .error (.illegal (formatXYN 0x5#4 x y n))) ∧
      ∃ t, exec (.seReg x y) s = .next t ∧ PcOnly s t (if s.reg x = s.reg y then s.pc + 4#16 else s.pc + 2#16)) ∧
    (decode (formatXYN 0x9#4 x y 0#4) = .ok (.sneReg x y) ∧
      (∀ n, n ≠ 0#4 → decode (formatXYN 0x9#4 x y n) = .error (.illegal (formatXYN 0x9#4 x y n))) ∧
      ∃ t, exec (.sneReg x y) s = .next t ∧ PcOnly s t (if s.reg x ≠ s.reg y then s.pc + 4#16 else s.pc + 2#16))

/-- `SKP` and `SKNP`: the key is the one in Vx; a Vx above 0xF faults, or is masked under `NIBBLE_OPERAND_POLICY = Mask` (R270, R271,
R223). -/
def Obligations.KeySkips : Prop :=
  (∀ x : RegIdx, decode (formatXKK 0xE#4 x 0x9E#8) = .ok (.skp x) ∧ decode (formatXKK 0xE#4 x 0xA1#8) = .ok (.sknp x)) ∧
  (∀ (x : RegIdx) (s : State) (k : KeyIdx), (s.reg x).toNat = k.val →
    (∃ t, exec (.skp x) s = .next t ∧ PcOnly s t (if s.key[k.val] = true then s.pc + 4#16 else s.pc + 2#16)) ∧
    (∃ t, exec (.sknp x) s = .next t ∧ PcOnly s t (if s.key[k.val] = false then s.pc + 4#16 else s.pc + 2#16))) ∧
  (∀ (x : RegIdx) (s : State), 0xF < (s.reg x).toNat →
    (∃ t, exec (.skp x) s = .next t ∧
      FaultsWith s t ⟨.operandOutOfRange, s.pc, some (formatXKK 0xE#4 x 0x9E#8), none, some (s.reg x)⟩) ∧
    (∃ t, exec (.sknp x) s = .next t ∧
      FaultsWith s t ⟨.operandOutOfRange, s.pc, some (formatXKK 0xE#4 x 0xA1#8), none, some (s.reg x)⟩)) ∧
  (∀ (p : Config.Params) (x : RegIdx) (s : State) (k : KeyIdx), p.nibblePolicy = .mask → k.val = (s.reg x).toNat % 16 →
    (∃ t, execUnder p (.skp x) s = .next t ∧ PcOnly s t (if s.key[k.val] = true then s.pc + 4#16 else s.pc + 2#16)) ∧
    (∃ t, execUnder p (.sknp x) s = .next t ∧ PcOnly s t (if s.key[k.val] = false then s.pc + 4#16 else s.pc + 2#16)))

/-! ### Loads, arithmetic and logic (42_load_arith.md) -/

/-- `LD Vx, byte` (R180). -/
def Obligations.LdByteLoadsTheImmediate : Prop :=
  ∀ (x : RegIdx) (kk : Byte) (s : State), decode (formatXKK 0x6#4 x kk) = .ok (.ldByte x kk) ∧
    ∃ t, exec (.ldByte x kk) s = .next t ∧ RegsOnly s t [x] ∧ t.reg x = kk

/-- `ADD Vx, byte`: the sum modulo 256 and no flag (R181). -/
def Obligations.AddByteAddsWithoutAFlag : Prop :=
  ∀ (x : RegIdx) (kk : Byte) (s : State), decode (formatXKK 0x7#4 x kk) = .ok (.addByte x kk) ∧
    ∃ t, exec (.addByte x kk) s = .next t ∧ RegsOnly s t [x] ∧ (t.reg x).toNat = ((s.reg x).toNat + kk.toNat) % 256

/-- `LD Vx, Vy` (R182). -/
def Obligations.LdRegMoves : Prop :=
  ∀ (x y : RegIdx) (s : State), decode (formatXYN 0x8#4 x y 0x0#4) = .ok (.ldReg x y) ∧
    ∃ t, exec (.ldReg x y) s = .next t ∧ RegsOnly s t [x] ∧ t.reg x = s.reg y

/-- `OR`, `AND`, `XOR`, bit by bit: no flag on this hardware; under `LOGIC_VF_RESET = true` VF is 0 after the result (R183, R184,
R185). -/
def Obligations.LogicOperations : Prop :=
  (∀ (x y : RegIdx) (s : State),
    (decode (formatXYN 0x8#4 x y 0x1#4) = .ok (.orReg x y) ∧ ∃ t, exec (.orReg x y) s = .next t ∧ RegsOnly s t [x] ∧
      ∀ b, (t.reg x).getLsbD b = ((s.reg x).getLsbD b || (s.reg y).getLsbD b)) ∧
    (decode (formatXYN 0x8#4 x y 0x2#4) = .ok (.andReg x y) ∧ ∃ t, exec (.andReg x y) s = .next t ∧ RegsOnly s t [x] ∧
      ∀ b, (t.reg x).getLsbD b = ((s.reg x).getLsbD b && (s.reg y).getLsbD b)) ∧
    (decode (formatXYN 0x8#4 x y 0x3#4) = .ok (.xorReg x y) ∧ ∃ t, exec (.xorReg x y) s = .next t ∧ RegsOnly s t [x] ∧
      ∀ b, (t.reg x).getLsbD b = ((s.reg x).getLsbD b ^^ (s.reg y).getLsbD b))) ∧
  (∀ (p : Config.Params) (x y : RegIdx) (s : State), p.logicVfReset = true →
    (∃ t, execUnder p (.orReg x y) s = .next t ∧ RegsOnly s t [x, vf] ∧ t.reg vf = 0#8 ∧
      (x ≠ vf → t.reg x = s.reg x ||| s.reg y)) ∧
    (∃ t, execUnder p (.andReg x y) s = .next t ∧ RegsOnly s t [x, vf] ∧ t.reg vf = 0#8 ∧
      (x ≠ vf → t.reg x = s.reg x &&& s.reg y)) ∧
    (∃ t, execUnder p (.xorReg x y) s = .next t ∧ RegsOnly s t [x, vf] ∧ t.reg vf = 0#8 ∧
      (x ≠ vf → t.reg x = s.reg x ^^^ s.reg y)))

/-- `ADD Vx, Vy`: the sum modulo 256, then the carry in VF, the flag winning where x = F (R186). -/
def Obligations.AddRegAddsWithCarry : Prop :=
  ∀ (x y : RegIdx) (s : State), decode (formatXYN 0x8#4 x y 0x4#4) = .ok (.addReg x y) ∧
    ∃ t, exec (.addReg x y) s = .next t ∧ RegsOnly s t [x, vf] ∧
      (x ≠ vf → (t.reg x).toNat = ((s.reg x).toNat + (s.reg y).toNat) % 256) ∧
      (t.reg vf).toNat = if (s.reg x).toNat + (s.reg y).toNat > 255 then 1 else 0

/-- `SUB Vx, Vy`: Vx - Vy modulo 256, then NOT borrow in VF (R187). -/
def Obligations.SubRegSubtractsWithNotBorrow : Prop :=
  ∀ (x y : RegIdx) (s : State), decode (formatXYN 0x8#4 x y 0x5#4) = .ok (.subReg x y) ∧
    ∃ t, exec (.subReg x y) s = .next t ∧ RegsOnly s t [x, vf] ∧
      (x ≠ vf → ((t.reg x).toNat : Int) = (((s.reg x).toNat : Int) - (s.reg y).toNat) % 256) ∧
      (t.reg vf).toNat = if (s.reg x).toNat ≥ (s.reg y).toNat then 1 else 0

/-- `SUBN Vx, Vy`: Vy - Vx modulo 256, then NOT borrow in VF (R189). -/
def Obligations.SubnRegSubtractsReversed : Prop :=
  ∀ (x y : RegIdx) (s : State), decode (formatXYN 0x8#4 x y 0x7#4) = .ok (.subnReg x y) ∧
    ∃ t, exec (.subnReg x y) s = .next t ∧ RegsOnly s t [x, vf] ∧
      (x ≠ vf → ((t.reg x).toNat : Int) = (((s.reg y).toNat : Int) - (s.reg x).toNat) % 256) ∧
      (t.reg vf).toNat = if (s.reg y).toNat ≥ (s.reg x).toNat then 1 else 0

/-- `SHR`: the source is Vx on this hardware and under `SHIFT_SOURCE = VX`, Vy under `VY`; VF is the bit shifted out (R188). -/
def Obligations.ShrShiftsRightByOne : Prop :=
  (∀ x y : RegIdx, decode (formatXYN 0x8#4 x y 0x6#4) = .ok (.shr x y)) ∧
  (∀ (x y : RegIdx) (s : State), ∃ t, exec (.shr x y) s = .next t ∧ RegsOnly s t [x, vf] ∧
    (x ≠ vf → (t.reg x).toNat = (s.reg x).toNat / 2) ∧ (t.reg vf).toNat = (s.reg x).toNat % 2) ∧
  (∀ (p : Config.Params) (x y : RegIdx) (s : State), ∃ t, execUnder p (.shr x y) s = .next t ∧ RegsOnly s t [x, vf] ∧
    (p.shiftSource = .vx →
      (x ≠ vf → (t.reg x).toNat = (s.reg x).toNat / 2) ∧ (t.reg vf).toNat = (s.reg x).toNat % 2) ∧
    (p.shiftSource = .vy →
      (x ≠ vf → (t.reg x).toNat = (s.reg y).toNat / 2) ∧ (t.reg vf).toNat = (s.reg y).toNat % 2))

/-- `SHL`: the source as for SHR; VF is the bit shifted out, bit 7 (R190). -/
def Obligations.ShlShiftsLeftByOne : Prop :=
  (∀ x y : RegIdx, decode (formatXYN 0x8#4 x y 0xE#4) = .ok (.shl x y)) ∧
  (∀ (x y : RegIdx) (s : State), ∃ t, exec (.shl x y) s = .next t ∧ RegsOnly s t [x, vf] ∧
    (x ≠ vf → (t.reg x).toNat = (s.reg x).toNat * 2 % 256) ∧ (t.reg vf).toNat = (s.reg x).toNat / 128) ∧
  (∀ (p : Config.Params) (x y : RegIdx) (s : State), ∃ t, execUnder p (.shl x y) s = .next t ∧ RegsOnly s t [x, vf] ∧
    (p.shiftSource = .vx →
      (x ≠ vf → (t.reg x).toNat = (s.reg x).toNat * 2 % 256) ∧ (t.reg vf).toNat = (s.reg x).toNat / 128) ∧
    (p.shiftSource = .vy →
      (x ≠ vf → (t.reg x).toNat = (s.reg y).toNat * 2 % 256) ∧ (t.reg vf).toNat = (s.reg y).toNat / 128))

/-- `RND Vx, byte`: the draw and the mask, for every value of the draw, which no other instruction reads (R200, R201). THE MODEL'S CHOICE
(log entry 2): on the machine the draw is the free value of this draw's number. -/
def Obligations.RndMasksTheDraw : Prop :=
  (∀ (x : RegIdx) (kk : Byte), decode (formatXKK 0xC#4 x kk) = .ok (.rnd x kk)) ∧
  (∀ (p : Config.Params) (rnd : Byte) (x : RegIdx) (kk : Byte) (s : State),
    ∃ t, execDraw p rnd (.rnd x kk) s = .next t ∧ RegsOnly s t [x] ∧ t.reg x = rnd &&& kk) ∧
  (∀ (p : Config.Params) (rnd rnd' : Byte) (i : Instr) (s : State), (∀ x kk, i ≠ .rnd x kk) →
    execDraw p rnd i s = execDraw p rnd' i s) ∧
  (∀ (x : RegIdx) (kk : Byte) (s : State), ∃ t, exec (.rnd x kk) s = .next t ∧
    t = { s with v := t.v, pc := s.pc + 2#16, draws := s.draws + 1 } ∧ (∀ k, k ≠ x → t.reg k = s.reg k) ∧
    t.reg x = Config.rnd s.draws &&& kk)

/-! ### Index register and memory transfer (43_index_memory.md) -/

/-- `LD I, addr` (R220). -/
def Obligations.LdILoadsTheAddress : Prop :=
  ∀ (nnn : Addr12) (s : State), decode (formatNNN 0xA#4 nnn) = .ok (.ldI nnn) ∧
    ∃ t, exec (.ldI nnn) s = .next t ∧ t = { s with i := t.i, pc := s.pc + 2#16 } ∧ t.i.toNat = nnn.toNat

/-- `ADD I, Vx`: in 16 bits, with no flag and no fault (R221). -/
def Obligations.AddIAddsInSixteenBits : Prop :=
  ∀ (x : RegIdx) (s : State), decode (formatXKK 0xF#4 x 0x1E#8) = .ok (.addIVx x) ∧
    ∃ t, exec (.addIVx x) s = .next t ∧ t = { s with i := t.i, pc := s.pc + 2#16 } ∧
      t.i.toNat = (s.i.toNat + (s.reg x).toNat) % 65536

/-- `LD F, Vx`: I is the glyph's address; a digit above 0xF faults, or is masked under `NIBBLE_OPERAND_POLICY = Mask` (R222, R223). -/
def Obligations.LdFPointsAtTheGlyph : Prop :=
  (∀ x : RegIdx, decode (formatXKK 0xF#4 x 0x29#8) = .ok (.ldFVx x)) ∧
  (∀ (x : RegIdx) (s : State), (s.reg x).toNat ≤ 0xF →
    ∃ t, exec (.ldFVx x) s = .next t ∧ t = { s with i := t.i, pc := s.pc + 2#16 } ∧
      t.i.toNat = Config.fontBase + 5 * (s.reg x).toNat) ∧
  (∀ (x : RegIdx) (s : State), 0xF < (s.reg x).toNat →
    ∃ t, exec (.ldFVx x) s = .next t ∧
      FaultsWith s t ⟨.operandOutOfRange, s.pc, some (formatXKK 0xF#4 x 0x29#8), none, some (s.reg x)⟩) ∧
  (∀ (p : Config.Params) (x : RegIdx) (s : State), p.nibblePolicy = .mask →
    ∃ t, execUnder p (.ldFVx x) s = .next t ∧ t = { s with i := t.i, pc := s.pc + 2#16 } ∧
      t.i.toNat = Config.fontBase + 5 * ((s.reg x).toNat % 16))

/-- `LD B, Vx`: the three decimal digits at I, I + 1, I + 2, or a fault with nothing written (R224). -/
def Obligations.LdBStoresTheDigits : Prop :=
  (∀ x : RegIdx, decode (formatXKK 0xF#4 x 0x33#8) = .ok (.ldBVx x)) ∧
  (∀ (x : RegIdx) (s : State), s.mem.wf = true → s.i.toNat + 2 ≤ 0xFFF →
    ∃ t, exec (.ldBVx x) s = .next t ∧ t = { s with mem := t.mem, pc := s.pc + 2#16 } ∧
      (t.mem.read s.i.toNat).toNat = (s.reg x).toNat / 100 ∧
      (t.mem.read (s.i.toNat + 1)).toNat = (s.reg x).toNat / 10 % 10 ∧
      (t.mem.read (s.i.toNat + 2)).toNat = (s.reg x).toNat % 10 ∧
      ∀ a, (a < s.i.toNat ∨ s.i.toNat + 2 < a) → t.mem.read a = s.mem.read a) ∧
  (∀ (x : RegIdx) (s : State), 0xFFF < s.i.toNat + 2 →
    ∃ t, exec (.ldBVx x) s = .next t ∧
      FaultsWith s t ⟨.memoryOutOfRange, s.pc, some (formatXKK 0xF#4 x 0x33#8), some (max s.i.toNat 0x1000), none⟩)

/-- `LD [I], Vx`: V0 to Vx at I to I + x, I moving on only under `MEM_I_INCREMENT`, or a fault with nothing written (R225). -/
def Obligations.LdMemDumpsRegisters : Prop :=
  (∀ x : RegIdx, decode (formatXKK 0xF#4 x 0x55#8) = .ok (.ldMemVx x)) ∧
  (∀ (x : RegIdx) (s : State), s.mem.wf = true → s.i.toNat + x.val ≤ 0xFFF →
    ∃ t, exec (.ldMemVx x) s = .next t ∧ t = { s with mem := t.mem, pc := s.pc + 2#16 } ∧
      (∀ k : RegIdx, k ≤ x → t.mem.read (s.i.toNat + k.val) = s.reg k) ∧
      ∀ a, (a < s.i.toNat ∨ s.i.toNat + x.val < a) → t.mem.read a = s.mem.read a) ∧
  (∀ (x : RegIdx) (s : State), 0xFFF < s.i.toNat + x.val →
    ∃ t, exec (.ldMemVx x) s = .next t ∧
      FaultsWith s t ⟨.memoryOutOfRange, s.pc, some (formatXKK 0xF#4 x 0x55#8), some (max s.i.toNat 0x1000), none⟩) ∧
  (∀ (p : Config.Params) (x : RegIdx) (s t : State), exec (.ldMemVx x) s = .next t → s.i.toNat + x.val ≤ 0xFFF →
    ∃ u, execUnder p (.ldMemVx x) s = .next u ∧ u = { t with i := u.i } ∧
      u.i.toNat = if p.memIIncrement = true then s.i.toNat + x.val + 1 else s.i.toNat)

/-- `LD Vx, [I]`: V0 to Vx from I to I + x, I moving on only under `MEM_I_INCREMENT`, or a fault with no register changed (R226). -/
def Obligations.LdVxMemLoadsRegisters : Prop :=
  (∀ x : RegIdx, decode (formatXKK 0xF#4 x 0x65#8) = .ok (.ldVxMem x)) ∧
  (∀ (x : RegIdx) (s : State), s.i.toNat + x.val ≤ 0xFFF →
    ∃ t, exec (.ldVxMem x) s = .next t ∧ t = { s with v := t.v, pc := s.pc + 2#16 } ∧
      ∀ k : RegIdx, t.reg k = if k ≤ x then s.mem.read (s.i.toNat + k.val) else s.reg k) ∧
  (∀ (x : RegIdx) (s : State), 0xFFF < s.i.toNat + x.val →
    ∃ t, exec (.ldVxMem x) s = .next t ∧
      FaultsWith s t ⟨.memoryOutOfRange, s.pc, some (formatXKK 0xF#4 x 0x65#8), some (max s.i.toNat 0x1000), none⟩) ∧
  (∀ (p : Config.Params) (x : RegIdx) (s t : State), exec (.ldVxMem x) s = .next t → s.i.toNat + x.val ≤ 0xFFF →
    ∃ u, execUnder p (.ldVxMem x) s = .next u ∧ u = { t with i := u.i } ∧
      u.i.toNat = if p.memIIncrement = true then s.i.toNat + x.val + 1 else s.i.toNat)

/-- A register dump and then a load with the same x, whatever the registers held between, give V0 to Vx back (R225, R226). -/
def Obligations.DumpThenLoadRestoresRegisters : Prop :=
  ∀ (x : RegIdx) (s t : State) (v : Vector Byte 16), s.mem.wf = true → s.i.toNat + x.val ≤ 0xFFF →
    exec (.ldMemVx x) s = .next t →
    ∃ u, exec (.ldVxMem x) { t with v := v } = .next u ∧ ∀ k : RegIdx, k ≤ x → u.reg k = s.reg k

/-! ### Display (44_display.md) -/

/-- `CLS` (R251). -/
def Obligations.ClsClearsEveryPixel : Prop :=
  decode 0x00E0#16 = .ok .cls ∧
  ∀ s : State, ∃ t, exec .cls s = .next t ∧ t = { s with disp := t.disp, pc := s.pc + 2#16 } ∧
    ∀ px py, t.disp.pixel px py = false

/-- `DRW Vx, Vy, nibble`: exactly the pixels the sprite covers are inverted, with wraparound on both axes, and VF says whether one of
them was set; a range that leaves memory faults with nothing changed (R250). -/
def Obligations.DrwInvertsTheCoveredPixels : Prop :=
  (∀ (x y : RegIdx) (n : Nibble), decode (formatXYN 0xD#4 x y n) = .ok (.drw x y n)) ∧
  (∀ (x y : RegIdx) (n : Nibble) (s : State), (n = 0#4 ∨ s.i.toNat + n.toNat - 1 ≤ 0xFFF) →
    ∃ t, exec (.drw x y n) s = .next t ∧ t = { s with v := t.v, disp := t.disp, pc := s.pc + 2#16 } ∧
      (∀ k, k ≠ vf → t.reg k = s.reg k) ∧
      (∀ px py, t.disp.pixel px py = true ↔
        ¬(s.disp.pixel px py = true ↔
          SpriteCovers (s.mem.readList s.i.toNat n.toNat) (s.reg x).toNat (s.reg y).toNat px py)) ∧
      (t.reg vf = 1#8 ∨ t.reg vf = 0#8) ∧
      (t.reg vf = 1#8 ↔ ∃ px py, s.disp.pixel px py = true ∧
        SpriteCovers (s.mem.readList s.i.toNat n.toNat) (s.reg x).toNat (s.reg y).toNat px py)) ∧
  (∀ (x y : RegIdx) (n : Nibble) (s : State), n ≠ 0#4 → 0xFFF < s.i.toNat + n.toNat - 1 →
    ∃ t, exec (.drw x y n) s = .next t ∧
      FaultsWith s t ⟨.memoryOutOfRange, s.pc, some (formatXYN 0xD#4 x y n), some (max s.i.toNat 0x1000), none⟩)

/-- Drawing the same sprite twice at the same place restores every pixel, and the second draw collides exactly where some covered pixel
was clear before the first: the double draw of R253, whose collision sentence for every start follows R250 only in this form (log entry
6). The coordinates are in registers other than VF, which the first draw writes. -/
def Obligations.DrawingTwiceRestoresTheDisplay : Prop :=
  ∀ (x y : RegIdx) (n : Nibble) (s t u : State), x ≠ vf → y ≠ vf →
    (n = 0#4 ∨ s.i.toNat + n.toNat - 1 ≤ 0xFFF) → exec (.drw x y n) s = .next t → exec (.drw x y n) t = .next u →
    u.disp = s.disp ∧
    (u.reg vf = 1#8 ↔ ∃ px py, s.disp.pixel px py = false ∧
      SpriteCovers (s.mem.readList s.i.toNat n.toNat) (s.reg x).toNat (s.reg y).toNat px py)

/-! ### Keypad and timers (45_keypad_timers.md, 60_exceptions.md) -/

/-- The timer transfers `LD Vx, DT`, `LD DT, Vx` and `LD ST, Vx` (R272, R273, R274). -/
def Obligations.TimerTransfers : Prop :=
  ∀ (x : RegIdx) (s : State),
    (decode (formatXKK 0xF#4 x 0x07#8) = .ok (.ldVxDt x) ∧
      ∃ t, exec (.ldVxDt x) s = .next t ∧ RegsOnly s t [x] ∧ t.reg x = s.dt) ∧
    (decode (formatXKK 0xF#4 x 0x15#8) = .ok (.ldDtVx x) ∧
      ∃ t, exec (.ldDtVx x) s = .next t ∧ t = { s with dt := s.reg x, pc := s.pc + 2#16 }) ∧
    (decode (formatXKK 0xF#4 x 0x18#8) = .ok (.ldStVx x) ∧
      ∃ t, exec (.ldStVx x) s = .next t ∧ t = { s with st := s.reg x, pc := s.pc + 2#16 } ∧
        (soundActive t = true ↔ s.reg x ≠ 0#8))

/-- `LD Vx, K` starts the wait and writes no PC (R275); during a wait, a key-down of a key that is up ends it: the key's index in Vx,
PC + 2, Running, the latch set (R277). -/
def Obligations.KeyWaitStartsAndCompletes : Prop :=
  (∀ x : RegIdx, decode (formatXKK 0xF#4 x 0x0A#8) = .ok (.ldVxK x)) ∧
  (∀ (x : RegIdx) (s : State), exec (.ldVxK x) s = .next { s with run := .awaitingKey x }) ∧
  (∀ (x : RegIdx) (s : State) (k : KeyIdx), s.run = .awaitingKey x → s.key[k.val] = false →
    keyDown k s = { s with v := (keyDown k s).v, key := (keyDown k s).key, pc := s.pc + 2#16, run := .running } ∧
    (∀ j : RegIdx, ((keyDown k s).reg j).toNat = if j = x then k.val else (s.reg j).toNat) ∧
    ∀ j : KeyIdx, (keyDown k s).key[j.val] = if j = k then true else s.key[j.val])

/-- While a key is awaited, a step is held and reports waiting, ticks count down, key-ups clear the latch, a key-down of a held key
does nothing, none of these ends the wait, and a `load` that is accepted does (R276). -/
def Obligations.OnlyAKeyPressOrALoadEndsTheWait : Prop :=
  ∀ (s : State) (x : RegIdx), s.run = .awaitingKey x →
    step s = .next s ∧ singleStep s = (.waiting, s) ∧
    ((tick s).run = .awaitingKey x ∧ (tick s).dt.toNat = s.dt.toNat - 1 ∧ (tick s).st.toNat = s.st.toNat - 1) ∧
    (∀ k, (keyUp k s).run = .awaitingKey x ∧ (keyUp k s).key[k.val] = false) ∧
    (∀ k : KeyIdx, s.key[k.val] = true → keyDown k s = s) ∧
    (∀ rom : List Byte, rom.length ≤ 3584 → (load rom s).2.run = .running)

/-- A tick decrements both timers by one, stopping at zero, in every run state, and changes nothing else (R320). -/
def Obligations.TickDecrementsBothTimers : Prop :=
  ∀ s : State, tick s = { s with dt := (tick s).dt, st := (tick s).st } ∧
    ((tick s).dt.toNat = s.dt.toNat - 1) ∧ ((tick s).st.toNat = s.st.toNat - 1)

/-- A key-up clears its latch bit and a key-down sets it, and neither writes anything else, but for the key-down of a key that is up
during a wait, which ends the wait (R325, R277). -/
def Obligations.KeyEventsWriteTheLatch : Prop :=
  (∀ (k : KeyIdx) (s : State), (∀ x, s.run = .awaitingKey x → s.key[k.val] = true) →
    keyDown k s = { s with key := (keyDown k s).key } ∧
    ∀ j : KeyIdx, (keyDown k s).key[j.val] = if j = k then true else s.key[j.val]) ∧
  (∀ (k : KeyIdx) (s : State) (x : RegIdx), s.run = .awaitingKey x → s.key[k.val] = false →
    (keyDown k s).run = .running ∧ (keyDown k s).pc = s.pc + 2#16 ∧ ((keyDown k s).reg x).toNat = k.val ∧
    ∀ j : KeyIdx, (keyDown k s).key[j.val] = if j = k then true else s.key[j.val]) ∧
  (∀ (k : KeyIdx) (s : State),
    keyUp k s = { s with key := (keyUp k s).key } ∧
    ∀ j : KeyIdx, (keyUp k s).key[j.val] = if j = k then false else s.key[j.val])

/-- The host's readbacks: a pixel in the grid, refused outside it (R327); the sound signal (R322); a key (R326); none changes the
state. -/
def Obligations.Readbacks : Prop :=
  (∀ (s : State) (px : Fin 64) (py : Fin 32), isSet px.val py.val s = .ok (s.disp.pixel px py)) ∧
  (∀ (s : State) (px py : Nat), (64 ≤ px ∨ 32 ≤ py) → isSet px py s = .error .readbackOutsideGrid) ∧
  (∀ s : State, soundActive s = true ↔ s.st.toNat ≠ 0) ∧
  (∀ (s : State) (k : KeyIdx), isPressed k s = s.key[k.val])

/-! ### Load (70_reset_and_hazards.md) -/

/-- A ROM that fits is copied to 0x200 over the reset state, and the keypad latch is kept; a longer one is refused with RomTooLarge and
the state is unchanged, the run state and the fault latch with it (R351, R352). The unread stack entries and the count of draws are not
spoken of. -/
def Obligations.LoadResetsAndCopiesOrRefuses : Prop :=
  (∀ (rom : List Byte) (s : State), rom.length ≤ 3584 →
    (load rom s).1 = .ok ∧
    (load rom s).2 = { State.reset with
      mem := (load rom s).2.mem, key := s.key, stack := (load rom s).2.stack, draws := (load rom s).2.draws } ∧
    (load rom s).2.mem.wf = true ∧
    (∀ (j : Nat) (h : j < rom.length), (load rom s).2.mem.read (0x200 + j) = rom[j]) ∧
    ∀ a, (a < 0x200 ∨ 0x200 + rom.length ≤ a) → (load rom s).2.mem.read a = State.reset.mem.read a) ∧
  (∀ (rom : List Byte) (s : State), 3584 < rom.length → load rom s = (.romTooLarge rom.length, s))

/-- A fault is sticky: through every sequence of steps, ticks, key events and refused loads the fault stays latched, and only the timers
and the keypad latch may change; a step reports the fault again, and an accepted `load` clears it (R305, R320, R325). -/
def Obligations.OnlyALoadClearsAFault : Prop :=
  ∀ (es : List Event) (s : State) (f : FaultRecord), s.run = .faulted f → (∀ rom, Event.load rom ∈ es → 3584 < rom.length) →
    runEvents es s = { s with dt := (runEvents es s).dt, st := (runEvents es s).st, key := (runEvents es s).key } ∧
    singleStep (runEvents es s) = (.fault f, runEvents es s) ∧
    ∀ rom : List Byte, rom.length ≤ 3584 → (load rom (runEvents es s)).2.run = .running

/-- With an empty ROM, and before any load, the first step faults with DecodeError on the word 0000 at 0x200 (R353). -/
def Obligations.EmptyRomFaultsAtOnce : Prop :=
  (∀ s : State, (load [] s).1 = .ok ∧
    (singleStep (load [] s).2).1 = .fault ⟨.decodeError, 0x200#16, some 0x0000#16, none, none⟩) ∧
  (singleStep State.reset).1 = .fault ⟨.decodeError, 0x200#16, some 0x0000#16, none, none⟩

/-- The parameterised execution at this hardware's values is `exec` (R8). -/
def Obligations.ParametersAtTheHardwareValues : Prop :=
  ∀ (i : Instr) (s : State), execUnder Config.hardware i s = exec i s
end

