-- ==== Sys2Proof/Laws/State.lean ====
section
/-! SUPPORT. One lemma per field of the state for each named update, so that no proof unfolds an update; then reading a register
after writing one. -/

namespace Sys2Proof.Machine

@[simp] theorem State.setMem_v (s : State) (m : Memory) : (s.setMem m).v = s.v := rfl
@[simp] theorem State.setMem_i (s : State) (m : Memory) : (s.setMem m).i = s.i := rfl
@[simp] theorem State.setMem_pc (s : State) (m : Memory) : (s.setMem m).pc = s.pc := rfl
@[simp] theorem State.setMem_stack (s : State) (m : Memory) : (s.setMem m).stack = s.stack := rfl
@[simp] theorem State.setMem_sp (s : State) (m : Memory) : (s.setMem m).sp = s.sp := rfl
@[simp] theorem State.setMem_dt (s : State) (m : Memory) : (s.setMem m).dt = s.dt := rfl
@[simp] theorem State.setMem_st (s : State) (m : Memory) : (s.setMem m).st = s.st := rfl
@[simp] theorem State.setMem_key (s : State) (m : Memory) : (s.setMem m).key = s.key := rfl
@[simp] theorem State.setMem_disp (s : State) (m : Memory) : (s.setMem m).disp = s.disp := rfl
@[simp] theorem State.setMem_mem (s : State) (m : Memory) : (s.setMem m).mem = m := rfl
@[simp] theorem State.setMem_run (s : State) (m : Memory) : (s.setMem m).run = s.run := rfl
@[simp] theorem State.setMem_draws (s : State) (m : Memory) : (s.setMem m).draws = s.draws := rfl

@[simp] theorem State.setReg_v (s : State) (x : RegIdx) (b : Byte) : (s.setReg x b).v = s.v.set x.val b := rfl
@[simp] theorem State.setReg_i (s : State) (x : RegIdx) (b : Byte) : (s.setReg x b).i = s.i := rfl
@[simp] theorem State.setReg_pc (s : State) (x : RegIdx) (b : Byte) : (s.setReg x b).pc = s.pc := rfl
@[simp] theorem State.setReg_stack (s : State) (x : RegIdx) (b : Byte) : (s.setReg x b).stack = s.stack := rfl
@[simp] theorem State.setReg_sp (s : State) (x : RegIdx) (b : Byte) : (s.setReg x b).sp = s.sp := rfl
@[simp] theorem State.setReg_dt (s : State) (x : RegIdx) (b : Byte) : (s.setReg x b).dt = s.dt := rfl
@[simp] theorem State.setReg_st (s : State) (x : RegIdx) (b : Byte) : (s.setReg x b).st = s.st := rfl
@[simp] theorem State.setReg_key (s : State) (x : RegIdx) (b : Byte) : (s.setReg x b).key = s.key := rfl
@[simp] theorem State.setReg_disp (s : State) (x : RegIdx) (b : Byte) : (s.setReg x b).disp = s.disp := rfl
@[simp] theorem State.setReg_mem (s : State) (x : RegIdx) (b : Byte) : (s.setReg x b).mem = s.mem := rfl
@[simp] theorem State.setReg_run (s : State) (x : RegIdx) (b : Byte) : (s.setReg x b).run = s.run := rfl
@[simp] theorem State.setReg_draws (s : State) (x : RegIdx) (b : Byte) : (s.setReg x b).draws = s.draws := rfl

@[simp] theorem State.setRegs_v (s : State) (bs : List Byte) : (s.setRegs bs).v = setRegsFrom s.v 0 bs := rfl
@[simp] theorem State.setRegs_i (s : State) (bs : List Byte) : (s.setRegs bs).i = s.i := rfl
@[simp] theorem State.setRegs_pc (s : State) (bs : List Byte) : (s.setRegs bs).pc = s.pc := rfl
@[simp] theorem State.setRegs_stack (s : State) (bs : List Byte) : (s.setRegs bs).stack = s.stack := rfl
@[simp] theorem State.setRegs_sp (s : State) (bs : List Byte) : (s.setRegs bs).sp = s.sp := rfl
@[simp] theorem State.setRegs_dt (s : State) (bs : List Byte) : (s.setRegs bs).dt = s.dt := rfl
@[simp] theorem State.setRegs_st (s : State) (bs : List Byte) : (s.setRegs bs).st = s.st := rfl
@[simp] theorem State.setRegs_key (s : State) (bs : List Byte) : (s.setRegs bs).key = s.key := rfl
@[simp] theorem State.setRegs_disp (s : State) (bs : List Byte) : (s.setRegs bs).disp = s.disp := rfl
@[simp] theorem State.setRegs_mem (s : State) (bs : List Byte) : (s.setRegs bs).mem = s.mem := rfl
@[simp] theorem State.setRegs_run (s : State) (bs : List Byte) : (s.setRegs bs).run = s.run := rfl
@[simp] theorem State.setRegs_draws (s : State) (bs : List Byte) : (s.setRegs bs).draws = s.draws := rfl

@[simp] theorem State.setI_v (s : State) (w : Word) : (s.setI w).v = s.v := rfl
@[simp] theorem State.setI_i (s : State) (w : Word) : (s.setI w).i = w := rfl
@[simp] theorem State.setI_pc (s : State) (w : Word) : (s.setI w).pc = s.pc := rfl
@[simp] theorem State.setI_stack (s : State) (w : Word) : (s.setI w).stack = s.stack := rfl
@[simp] theorem State.setI_sp (s : State) (w : Word) : (s.setI w).sp = s.sp := rfl
@[simp] theorem State.setI_dt (s : State) (w : Word) : (s.setI w).dt = s.dt := rfl
@[simp] theorem State.setI_st (s : State) (w : Word) : (s.setI w).st = s.st := rfl
@[simp] theorem State.setI_key (s : State) (w : Word) : (s.setI w).key = s.key := rfl
@[simp] theorem State.setI_disp (s : State) (w : Word) : (s.setI w).disp = s.disp := rfl
@[simp] theorem State.setI_mem (s : State) (w : Word) : (s.setI w).mem = s.mem := rfl
@[simp] theorem State.setI_run (s : State) (w : Word) : (s.setI w).run = s.run := rfl
@[simp] theorem State.setI_draws (s : State) (w : Word) : (s.setI w).draws = s.draws := rfl

@[simp] theorem State.setDt_v (s : State) (b : Byte) : (s.setDt b).v = s.v := rfl
@[simp] theorem State.setDt_i (s : State) (b : Byte) : (s.setDt b).i = s.i := rfl
@[simp] theorem State.setDt_pc (s : State) (b : Byte) : (s.setDt b).pc = s.pc := rfl
@[simp] theorem State.setDt_stack (s : State) (b : Byte) : (s.setDt b).stack = s.stack := rfl
@[simp] theorem State.setDt_sp (s : State) (b : Byte) : (s.setDt b).sp = s.sp := rfl
@[simp] theorem State.setDt_dt (s : State) (b : Byte) : (s.setDt b).dt = b := rfl
@[simp] theorem State.setDt_st (s : State) (b : Byte) : (s.setDt b).st = s.st := rfl
@[simp] theorem State.setDt_key (s : State) (b : Byte) : (s.setDt b).key = s.key := rfl
@[simp] theorem State.setDt_disp (s : State) (b : Byte) : (s.setDt b).disp = s.disp := rfl
@[simp] theorem State.setDt_mem (s : State) (b : Byte) : (s.setDt b).mem = s.mem := rfl
@[simp] theorem State.setDt_run (s : State) (b : Byte) : (s.setDt b).run = s.run := rfl
@[simp] theorem State.setDt_draws (s : State) (b : Byte) : (s.setDt b).draws = s.draws := rfl

@[simp] theorem State.setSt_v (s : State) (b : Byte) : (s.setSt b).v = s.v := rfl
@[simp] theorem State.setSt_i (s : State) (b : Byte) : (s.setSt b).i = s.i := rfl
@[simp] theorem State.setSt_pc (s : State) (b : Byte) : (s.setSt b).pc = s.pc := rfl
@[simp] theorem State.setSt_stack (s : State) (b : Byte) : (s.setSt b).stack = s.stack := rfl
@[simp] theorem State.setSt_sp (s : State) (b : Byte) : (s.setSt b).sp = s.sp := rfl
@[simp] theorem State.setSt_dt (s : State) (b : Byte) : (s.setSt b).dt = s.dt := rfl
@[simp] theorem State.setSt_st (s : State) (b : Byte) : (s.setSt b).st = b := rfl
@[simp] theorem State.setSt_key (s : State) (b : Byte) : (s.setSt b).key = s.key := rfl
@[simp] theorem State.setSt_disp (s : State) (b : Byte) : (s.setSt b).disp = s.disp := rfl
@[simp] theorem State.setSt_mem (s : State) (b : Byte) : (s.setSt b).mem = s.mem := rfl
@[simp] theorem State.setSt_run (s : State) (b : Byte) : (s.setSt b).run = s.run := rfl
@[simp] theorem State.setSt_draws (s : State) (b : Byte) : (s.setSt b).draws = s.draws := rfl

@[simp] theorem State.takeDraw_v (s : State) : s.takeDraw.v = s.v := rfl
@[simp] theorem State.takeDraw_i (s : State) : s.takeDraw.i = s.i := rfl
@[simp] theorem State.takeDraw_pc (s : State) : s.takeDraw.pc = s.pc := rfl
@[simp] theorem State.takeDraw_stack (s : State) : s.takeDraw.stack = s.stack := rfl
@[simp] theorem State.takeDraw_sp (s : State) : s.takeDraw.sp = s.sp := rfl
@[simp] theorem State.takeDraw_dt (s : State) : s.takeDraw.dt = s.dt := rfl
@[simp] theorem State.takeDraw_st (s : State) : s.takeDraw.st = s.st := rfl
@[simp] theorem State.takeDraw_key (s : State) : s.takeDraw.key = s.key := rfl
@[simp] theorem State.takeDraw_disp (s : State) : s.takeDraw.disp = s.disp := rfl
@[simp] theorem State.takeDraw_mem (s : State) : s.takeDraw.mem = s.mem := rfl
@[simp] theorem State.takeDraw_run (s : State) : s.takeDraw.run = s.run := rfl
@[simp] theorem State.takeDraw_draws (s : State) : s.takeDraw.draws = s.draws + 1 := rfl

@[simp] theorem State.setPc_v (s : State) (target : Word) : (s.setPc target).v = s.v := rfl
@[simp] theorem State.setPc_i (s : State) (target : Word) : (s.setPc target).i = s.i := rfl
@[simp] theorem State.setPc_pc (s : State) (target : Word) : (s.setPc target).pc = target := rfl
@[simp] theorem State.setPc_stack (s : State) (target : Word) : (s.setPc target).stack = s.stack := rfl
@[simp] theorem State.setPc_sp (s : State) (target : Word) : (s.setPc target).sp = s.sp := rfl
@[simp] theorem State.setPc_dt (s : State) (target : Word) : (s.setPc target).dt = s.dt := rfl
@[simp] theorem State.setPc_st (s : State) (target : Word) : (s.setPc target).st = s.st := rfl
@[simp] theorem State.setPc_key (s : State) (target : Word) : (s.setPc target).key = s.key := rfl
@[simp] theorem State.setPc_disp (s : State) (target : Word) : (s.setPc target).disp = s.disp := rfl
@[simp] theorem State.setPc_mem (s : State) (target : Word) : (s.setPc target).mem = s.mem := rfl
@[simp] theorem State.setPc_run (s : State) (target : Word) : (s.setPc target).run = s.run := rfl
@[simp] theorem State.setPc_draws (s : State) (target : Word) : (s.setPc target).draws = s.draws := rfl

@[simp] theorem State.advance_v (s : State) : s.advance.v = s.v := rfl
@[simp] theorem State.advance_i (s : State) : s.advance.i = s.i := rfl
@[simp] theorem State.advance_pc (s : State) : s.advance.pc = s.pc + 2#16 := rfl
@[simp] theorem State.advance_stack (s : State) : s.advance.stack = s.stack := rfl
@[simp] theorem State.advance_sp (s : State) : s.advance.sp = s.sp := rfl
@[simp] theorem State.advance_dt (s : State) : s.advance.dt = s.dt := rfl
@[simp] theorem State.advance_st (s : State) : s.advance.st = s.st := rfl
@[simp] theorem State.advance_key (s : State) : s.advance.key = s.key := rfl
@[simp] theorem State.advance_disp (s : State) : s.advance.disp = s.disp := rfl
@[simp] theorem State.advance_mem (s : State) : s.advance.mem = s.mem := rfl
@[simp] theorem State.advance_run (s : State) : s.advance.run = s.run := rfl
@[simp] theorem State.advance_draws (s : State) : s.advance.draws = s.draws := rfl

@[simp] theorem State.skipIf_v (s : State) (c : Bool) : (s.skipIf c).v = s.v := rfl
@[simp] theorem State.skipIf_i (s : State) (c : Bool) : (s.skipIf c).i = s.i := rfl
@[simp] theorem State.skipIf_pc (s : State) (c : Bool) : (s.skipIf c).pc = s.pc + (if c then 4#16 else 2#16) := rfl
@[simp] theorem State.skipIf_stack (s : State) (c : Bool) : (s.skipIf c).stack = s.stack := rfl
@[simp] theorem State.skipIf_sp (s : State) (c : Bool) : (s.skipIf c).sp = s.sp := rfl
@[simp] theorem State.skipIf_dt (s : State) (c : Bool) : (s.skipIf c).dt = s.dt := rfl
@[simp] theorem State.skipIf_st (s : State) (c : Bool) : (s.skipIf c).st = s.st := rfl
@[simp] theorem State.skipIf_key (s : State) (c : Bool) : (s.skipIf c).key = s.key := rfl
@[simp] theorem State.skipIf_disp (s : State) (c : Bool) : (s.skipIf c).disp = s.disp := rfl
@[simp] theorem State.skipIf_mem (s : State) (c : Bool) : (s.skipIf c).mem = s.mem := rfl
@[simp] theorem State.skipIf_run (s : State) (c : Bool) : (s.skipIf c).run = s.run := rfl
@[simp] theorem State.skipIf_draws (s : State) (c : Bool) : (s.skipIf c).draws = s.draws := rfl

@[simp] theorem State.setDisp_v (s : State) (d : Display) : (s.setDisp d).v = s.v := rfl
@[simp] theorem State.setDisp_i (s : State) (d : Display) : (s.setDisp d).i = s.i := rfl
@[simp] theorem State.setDisp_pc (s : State) (d : Display) : (s.setDisp d).pc = s.pc := rfl
@[simp] theorem State.setDisp_stack (s : State) (d : Display) : (s.setDisp d).stack = s.stack := rfl
@[simp] theorem State.setDisp_sp (s : State) (d : Display) : (s.setDisp d).sp = s.sp := rfl
@[simp] theorem State.setDisp_dt (s : State) (d : Display) : (s.setDisp d).dt = s.dt := rfl
@[simp] theorem State.setDisp_st (s : State) (d : Display) : (s.setDisp d).st = s.st := rfl
@[simp] theorem State.setDisp_key (s : State) (d : Display) : (s.setDisp d).key = s.key := rfl
@[simp] theorem State.setDisp_disp (s : State) (d : Display) : (s.setDisp d).disp = d := rfl
@[simp] theorem State.setDisp_mem (s : State) (d : Display) : (s.setDisp d).mem = s.mem := rfl
@[simp] theorem State.setDisp_run (s : State) (d : Display) : (s.setDisp d).run = s.run := rfl
@[simp] theorem State.setDisp_draws (s : State) (d : Display) : (s.setDisp d).draws = s.draws := rfl

@[simp] theorem State.setRun_v (s : State) (r : RunState) : (s.setRun r).v = s.v := rfl
@[simp] theorem State.setRun_i (s : State) (r : RunState) : (s.setRun r).i = s.i := rfl
@[simp] theorem State.setRun_pc (s : State) (r : RunState) : (s.setRun r).pc = s.pc := rfl
@[simp] theorem State.setRun_stack (s : State) (r : RunState) : (s.setRun r).stack = s.stack := rfl
@[simp] theorem State.setRun_sp (s : State) (r : RunState) : (s.setRun r).sp = s.sp := rfl
@[simp] theorem State.setRun_dt (s : State) (r : RunState) : (s.setRun r).dt = s.dt := rfl
@[simp] theorem State.setRun_st (s : State) (r : RunState) : (s.setRun r).st = s.st := rfl
@[simp] theorem State.setRun_key (s : State) (r : RunState) : (s.setRun r).key = s.key := rfl
@[simp] theorem State.setRun_disp (s : State) (r : RunState) : (s.setRun r).disp = s.disp := rfl
@[simp] theorem State.setRun_mem (s : State) (r : RunState) : (s.setRun r).mem = s.mem := rfl
@[simp] theorem State.setRun_run (s : State) (r : RunState) : (s.setRun r).run = r := rfl
@[simp] theorem State.setRun_draws (s : State) (r : RunState) : (s.setRun r).draws = s.draws := rfl

@[simp] theorem State.setKey_v (s : State) (k : KeyIdx) (b : Bool) : (s.setKey k b).v = s.v := rfl
@[simp] theorem State.setKey_i (s : State) (k : KeyIdx) (b : Bool) : (s.setKey k b).i = s.i := rfl
@[simp] theorem State.setKey_pc (s : State) (k : KeyIdx) (b : Bool) : (s.setKey k b).pc = s.pc := rfl
@[simp] theorem State.setKey_stack (s : State) (k : KeyIdx) (b : Bool) : (s.setKey k b).stack = s.stack := rfl
@[simp] theorem State.setKey_sp (s : State) (k : KeyIdx) (b : Bool) : (s.setKey k b).sp = s.sp := rfl
@[simp] theorem State.setKey_dt (s : State) (k : KeyIdx) (b : Bool) : (s.setKey k b).dt = s.dt := rfl
@[simp] theorem State.setKey_st (s : State) (k : KeyIdx) (b : Bool) : (s.setKey k b).st = s.st := rfl
@[simp] theorem State.setKey_key (s : State) (k : KeyIdx) (b : Bool) : (s.setKey k b).key = s.key.set k.val b := rfl
@[simp] theorem State.setKey_disp (s : State) (k : KeyIdx) (b : Bool) : (s.setKey k b).disp = s.disp := rfl
@[simp] theorem State.setKey_mem (s : State) (k : KeyIdx) (b : Bool) : (s.setKey k b).mem = s.mem := rfl
@[simp] theorem State.setKey_run (s : State) (k : KeyIdx) (b : Bool) : (s.setKey k b).run = s.run := rfl
@[simp] theorem State.setKey_draws (s : State) (k : KeyIdx) (b : Bool) : (s.setKey k b).draws = s.draws := rfl

@[simp] theorem State.takeFault_v (s : State) (c : Trap) (word : Option Word) : (s.takeFault c word).v = s.v := rfl
@[simp] theorem State.takeFault_i (s : State) (c : Trap) (word : Option Word) : (s.takeFault c word).i = s.i := rfl
@[simp] theorem State.takeFault_pc (s : State) (c : Trap) (word : Option Word) : (s.takeFault c word).pc = s.pc := rfl
@[simp] theorem State.takeFault_stack (s : State) (c : Trap) (word : Option Word) : (s.takeFault c word).stack = s.stack := rfl
@[simp] theorem State.takeFault_sp (s : State) (c : Trap) (word : Option Word) : (s.takeFault c word).sp = s.sp := rfl
@[simp] theorem State.takeFault_dt (s : State) (c : Trap) (word : Option Word) : (s.takeFault c word).dt = s.dt := rfl
@[simp] theorem State.takeFault_st (s : State) (c : Trap) (word : Option Word) : (s.takeFault c word).st = s.st := rfl
@[simp] theorem State.takeFault_key (s : State) (c : Trap) (word : Option Word) : (s.takeFault c word).key = s.key := rfl
@[simp] theorem State.takeFault_disp (s : State) (c : Trap) (word : Option Word) : (s.takeFault c word).disp = s.disp := rfl
@[simp] theorem State.takeFault_mem (s : State) (c : Trap) (word : Option Word) : (s.takeFault c word).mem = s.mem := rfl
@[simp] theorem State.takeFault_run (s : State) (c : Trap) (word : Option Word) : (s.takeFault c word).run = .faulted (c.record s.pc word) := rfl
@[simp] theorem State.takeFault_draws (s : State) (c : Trap) (word : Option Word) : (s.takeFault c word).draws = s.draws := rfl

@[simp] theorem State.setResultFlag_v (s : State) (x : RegIdx) (r f : Byte) : (s.setResultFlag x r f).v = (s.v.set x.val r).set vf.val f := rfl
@[simp] theorem State.setResultFlag_i (s : State) (x : RegIdx) (r f : Byte) : (s.setResultFlag x r f).i = s.i := rfl
@[simp] theorem State.setResultFlag_pc (s : State) (x : RegIdx) (r f : Byte) : (s.setResultFlag x r f).pc = s.pc := rfl
@[simp] theorem State.setResultFlag_stack (s : State) (x : RegIdx) (r f : Byte) : (s.setResultFlag x r f).stack = s.stack := rfl
@[simp] theorem State.setResultFlag_sp (s : State) (x : RegIdx) (r f : Byte) : (s.setResultFlag x r f).sp = s.sp := rfl
@[simp] theorem State.setResultFlag_dt (s : State) (x : RegIdx) (r f : Byte) : (s.setResultFlag x r f).dt = s.dt := rfl
@[simp] theorem State.setResultFlag_st (s : State) (x : RegIdx) (r f : Byte) : (s.setResultFlag x r f).st = s.st := rfl
@[simp] theorem State.setResultFlag_key (s : State) (x : RegIdx) (r f : Byte) : (s.setResultFlag x r f).key = s.key := rfl
@[simp] theorem State.setResultFlag_disp (s : State) (x : RegIdx) (r f : Byte) : (s.setResultFlag x r f).disp = s.disp := rfl
@[simp] theorem State.setResultFlag_mem (s : State) (x : RegIdx) (r f : Byte) : (s.setResultFlag x r f).mem = s.mem := rfl
@[simp] theorem State.setResultFlag_run (s : State) (x : RegIdx) (r f : Byte) : (s.setResultFlag x r f).run = s.run := rfl
@[simp] theorem State.setResultFlag_draws (s : State) (x : RegIdx) (r f : Byte) : (s.setResultFlag x r f).draws = s.draws := rfl

/-! A logic result is the plain write or the write with the flag (R183). -/

@[simp] theorem State.setLogicResult_i (s : State) (c : Bool) (x : RegIdx) (r : Byte) :
    (s.setLogicResult c x r).i = s.i := by cases c <;> rfl
@[simp] theorem State.setLogicResult_pc (s : State) (c : Bool) (x : RegIdx) (r : Byte) :
    (s.setLogicResult c x r).pc = s.pc := by cases c <;> rfl
@[simp] theorem State.setLogicResult_stack (s : State) (c : Bool) (x : RegIdx) (r : Byte) :
    (s.setLogicResult c x r).stack = s.stack := by cases c <;> rfl
@[simp] theorem State.setLogicResult_sp (s : State) (c : Bool) (x : RegIdx) (r : Byte) :
    (s.setLogicResult c x r).sp = s.sp := by cases c <;> rfl
@[simp] theorem State.setLogicResult_dt (s : State) (c : Bool) (x : RegIdx) (r : Byte) :
    (s.setLogicResult c x r).dt = s.dt := by cases c <;> rfl
@[simp] theorem State.setLogicResult_st (s : State) (c : Bool) (x : RegIdx) (r : Byte) :
    (s.setLogicResult c x r).st = s.st := by cases c <;> rfl
@[simp] theorem State.setLogicResult_key (s : State) (c : Bool) (x : RegIdx) (r : Byte) :
    (s.setLogicResult c x r).key = s.key := by cases c <;> rfl
@[simp] theorem State.setLogicResult_disp (s : State) (c : Bool) (x : RegIdx) (r : Byte) :
    (s.setLogicResult c x r).disp = s.disp := by cases c <;> rfl
@[simp] theorem State.setLogicResult_mem (s : State) (c : Bool) (x : RegIdx) (r : Byte) :
    (s.setLogicResult c x r).mem = s.mem := by cases c <;> rfl
@[simp] theorem State.setLogicResult_run (s : State) (c : Bool) (x : RegIdx) (r : Byte) :
    (s.setLogicResult c x r).run = s.run := by cases c <;> rfl
@[simp] theorem State.setLogicResult_draws (s : State) (c : Bool) (x : RegIdx) (r : Byte) :
    (s.setLogicResult c x r).draws = s.draws := by cases c <;> rfl

/-! ### Registers -/

/-- What a register reads as after a write of one. -/
@[simp] theorem State.reg_setReg (s : State) (x k : RegIdx) (b : Byte) :
    (s.setReg x b).reg k = if k = x then b else s.reg k := by
  simp only [State.reg, State.setReg, Vector.getElem_set, Fin.ext_iff, eq_comm]

/-- What a register reads as after a result and then a flag (R11, R203). -/
@[simp] theorem State.reg_setResultFlag (s : State) (x k : RegIdx) (r f : Byte) :
    (s.setResultFlag x r f).reg k = if k = vf then f else if k = x then r else s.reg k := by
  simp [State.setResultFlag]

@[simp] theorem State.reg_setMem (s : State) (m : Memory) (x : RegIdx) : (s.setMem m).reg x = s.reg x := rfl
@[simp] theorem State.reg_setI (s : State) (w : Word) (x : RegIdx) : (s.setI w).reg x = s.reg x := rfl
@[simp] theorem State.reg_setDt (s : State) (b : Byte) (x : RegIdx) : (s.setDt b).reg x = s.reg x := rfl
@[simp] theorem State.reg_setSt (s : State) (b : Byte) (x : RegIdx) : (s.setSt b).reg x = s.reg x := rfl
@[simp] theorem State.reg_takeDraw (s : State) (x : RegIdx) : s.takeDraw.reg x = s.reg x := rfl
@[simp] theorem State.reg_setPc (s : State) (target : Word) (x : RegIdx) : (s.setPc target).reg x = s.reg x := rfl
@[simp] theorem State.reg_advance (s : State) (x : RegIdx) : s.advance.reg x = s.reg x := rfl
@[simp] theorem State.reg_skipIf (s : State) (c : Bool) (x : RegIdx) : (s.skipIf c).reg x = s.reg x := rfl
@[simp] theorem State.reg_setDisp (s : State) (d : Display) (x : RegIdx) : (s.setDisp d).reg x = s.reg x := rfl
@[simp] theorem State.reg_setRun (s : State) (r : RunState) (x : RegIdx) : (s.setRun r).reg x = s.reg x := rfl
@[simp] theorem State.reg_setKey (s : State) (k : KeyIdx) (b : Bool) (x : RegIdx) : (s.setKey k b).reg x = s.reg x := rfl
@[simp] theorem State.reg_takeFault (s : State) (c : Trap) (word : Option Word) (x : RegIdx) : (s.takeFault c word).reg x = s.reg x := rfl

/-- Two states with the same registers read alike. -/
theorem State.v_ext {s t : State} (h : ∀ k, t.reg k = s.reg k) : t.v = s.v := by
  ext i hi
  exact congrArg (BitVec.getLsbD · _) (h ⟨i, hi⟩)

end Sys2Proof.Machine
end

