-- ==== Sys2Proof/Laws/Memory.lean ====
section
/-! SUPPORT. Memory: read after write, the canonical form and its uniqueness, the range check, and the list accesses. -/

namespace Sys2Proof.Machine

namespace Memory

/-- A memory in canonical form from `lo` on lists nothing below `lo`. -/
theorem read_of_lt {m : Memory} {lo a : Nat} (h : wfFrom lo m = true) (ha : a < lo) : read m a = unlisted a := by
  induction m generalizing lo with
  | nil => rfl
  | cons c rest ih =>
    obtain ⟨b, v⟩ := c
    simp only [wfFrom, Bool.and_eq_true, decide_eq_true_eq] at h
    rw [read, if_neg (by omega)]
    exact ih h.2 (by omega)

/-- The canonical form from a later address is one from an earlier address. -/
theorem wfFrom_mono {m : Memory} {lo lo' : Nat} (h : wfFrom lo m = true) (hl : lo' ≤ lo) : wfFrom lo' m = true := by
  cases m with
  | nil => rfl
  | cons c rest =>
    obtain ⟨b, v⟩ := c
    simp only [wfFrom, Bool.and_eq_true, decide_eq_true_eq] at h ⊢
    exact ⟨⟨⟨by omega, h.1.1.2⟩, h.1.2⟩, h.2⟩

/-- A write inside memory keeps the canonical form. -/
theorem wfFrom_write {m : Memory} {lo a : Nat} {v : Byte} (h : wfFrom lo m = true) (hl : lo ≤ a)
    (ha : a < Config.memSize) : wfFrom lo (write m a v) = true := by
  induction m generalizing lo with
  | nil =>
    simp only [write]
    split <;> simp_all [wfFrom]
  | cons c rest ih =>
    obtain ⟨b, u⟩ := c
    simp only [wfFrom, Bool.and_eq_true, decide_eq_true_eq] at h
    obtain ⟨⟨⟨h1, h2⟩, h3⟩, h4⟩ := h
    rw [write]
    split
    · split
      · simp [wfFrom, *]
      · simp only [wfFrom, Bool.and_eq_true, decide_eq_true_eq]
        exact ⟨⟨⟨hl, ha⟩, ‹_›⟩, ⟨⟨by omega, h2⟩, h3⟩, h4⟩
    · split
      · split
        · exact wfFrom_mono h4 (by omega)
        · simp only [wfFrom, Bool.and_eq_true, decide_eq_true_eq]
          exact ⟨⟨⟨hl, ha⟩, ‹_›⟩, wfFrom_mono h4 (by omega)⟩
      · simp only [wfFrom, Bool.and_eq_true, decide_eq_true_eq]
        exact ⟨⟨⟨h1, h2⟩, h3⟩, ih h4 (by omega)⟩

/-- Read after write in a canonical memory: the written byte at its address, every other byte as before. -/
theorem read_write_from {m : Memory} {lo : Nat} (h : wfFrom lo m = true) (a : Nat) (v : Byte) (k : Nat) :
    read (write m a v) k = if k = a then v else read m k := by
  induction m generalizing lo with
  | nil =>
    simp only [write]
    split
    · split <;> simp_all [read]
    · simp only [read, eq_comm]
  | cons c rest ih =>
    obtain ⟨b, u⟩ := c
    simp only [wfFrom, Bool.and_eq_true, decide_eq_true_eq] at h
    rw [write]
    split
    · split
      · split
        · subst k
          rw [read, if_neg (by omega), read_of_lt h.2 (by omega)]
          exact Eq.symm ‹_›
        · rfl
      · simp only [read, eq_comm]
    · split
      · subst a
        split
        · split
          · subst k
            rw [read_of_lt h.2 (by omega)]
            exact Eq.symm ‹_›
          · rw [read, if_neg (by omega)]
        · simp only [read, eq_comm]
          split <;> rfl
      · simp only [read]
        rw [ih h.2]
        split
        · rw [if_neg (by omega)]
        · rfl

/-- Read after write (20_memory.md R86). -/
theorem read_write {m : Memory} (h : m.wf = true) (a : Nat) (v : Byte) (k : Nat) :
    (m.write a v).read k = if k = a then v else m.read k := read_write_from h a v k

/-- A write inside memory keeps the canonical form. -/
theorem wf_write {m : Memory} (h : m.wf = true) {a : Nat} (ha : a < Config.memSize) (v : Byte) : (m.write a v).wf = true :=
  wfFrom_write h (Nat.zero_le a) ha

/-- Writing a list inside memory keeps the canonical form. -/
theorem wf_writeList {m : Memory} (h : m.wf = true) {a : Nat} (vs : List Byte) (ha : a + vs.length ≤ Config.memSize) :
    (m.writeList a vs).wf = true := by
  induction vs generalizing m a with
  | nil => exact h
  | cons v vs ih =>
    simp only [List.length_cons] at ha
    exact ih (wf_write h (by omega) v) (by omega)

/-- What reads where after a list is written: its k-th byte at a + k, every other byte as before. -/
theorem read_writeList {m : Memory} (h : m.wf = true) {a : Nat} (vs : List Byte) (ha : a + vs.length ≤ Config.memSize)
    (k : Nat) : (m.writeList a vs).read k = if a ≤ k then vs.getD (k - a) (m.read k) else m.read k := by
  induction vs generalizing m a with
  | nil => simp [writeList]
  | cons v vs ih =>
    simp only [List.length_cons] at ha
    rw [writeList, ih (wf_write h (by omega) v) (by omega), read_write h]
    rcases Nat.lt_trichotomy k a with hk | rfl | hk
    · rw [if_neg (by omega), if_neg (by omega), if_neg (by omega)]
    · rw [if_neg (by omega), if_pos rfl, if_pos (le_refl k), Nat.sub_self]
      rfl
    · obtain ⟨d, rfl⟩ : ∃ d, k = a + 1 + d := ⟨k - (a + 1), by omega⟩
      rw [if_pos (by omega), if_neg (by omega), if_pos (by omega), Nat.add_sub_cancel_left,
        show a + 1 + d - a = d + 1 by omega, List.getD_cons_succ]

/-- The k-th byte of a list read from a is the byte at a + k. -/
theorem readList_eq (m : Memory) (a n : Nat) : m.readList a n = (List.range n).map fun k => m.read (a + k) := by
  induction n generalizing a with
  | zero => rfl
  | succ n ih =>
    rw [readList, ih, List.range_succ_eq_map, List.map_cons, List.map_map]
    refine congrArg _ (List.map_congr_left fun k _ => ?_)
    simp only [Function.comp_apply]
    congr 1
    omega

@[simp] theorem length_readList (m : Memory) (a n : Nat) : (m.readList a n).length = n := by simp [readList_eq]

/-- Canonical memories that read alike are the same list. -/
theorem ext_from {m m' : Memory} {lo : Nat} (h : wfFrom lo m = true) (h' : wfFrom lo m' = true)
    (heq : ∀ a, read m a = read m' a) : m = m' := by
  induction m generalizing m' lo with
  | nil =>
    cases m' with
    | nil => rfl
    | cons c rest =>
      obtain ⟨b, u⟩ := c
      simp only [wfFrom, Bool.and_eq_true, decide_eq_true_eq] at h'
      have := heq b
      simp only [read, if_true] at this
      exact absurd this.symm h'.1.2
  | cons c rest ih =>
    obtain ⟨a, v⟩ := c
    have hm := h
    simp only [wfFrom, Bool.and_eq_true, decide_eq_true_eq] at h
    cases m' with
    | nil =>
      have := heq a
      simp only [read, if_true] at this
      exact absurd this h.1.2
    | cons c' rest' =>
      obtain ⟨b, u⟩ := c'
      have hm' := h'
      simp only [wfFrom, Bool.and_eq_true, decide_eq_true_eq] at h'
      rcases Nat.lt_trichotomy a b with hab | rfl | hab
      · have := heq a
        rw [read, if_pos rfl, read, if_neg (by omega), read_of_lt h'.2 (by omega)] at this
        exact absurd this h.1.2
      · have hv := heq a
        simp only [read, if_true] at hv
        subst hv
        have := ih h.2 h'.2 fun k => ?_
        · rw [this]
        · rcases Nat.lt_or_ge k (a + 1) with hk | hk
          · rw [read_of_lt h.2 hk, read_of_lt h'.2 hk]
          · have := heq k
            rwa [read, if_neg (by omega), read, if_neg (by omega)] at this
      · have := heq b
        rw [read, if_neg (by omega), read_of_lt h.2 (by omega), read, if_pos rfl] at this
        exact absurd this.symm h'.1.2

/-- Canonical memories that read alike are equal. -/
theorem ext_read {m m' : Memory} (h : m.wf = true) (h' : m'.wf = true) (heq : ∀ a, m.read a = m'.read a) : m = m' :=
  ext_from h h' heq

end Memory

/-! ### The range check and the checked accesses (R74) -/

/-- `CheckRange` passes exactly where nothing is accessed or the last address is in memory. -/
theorem checkRange_ok {a n : Nat} (h : n = 0 ∨ a + n ≤ 0x1000) : checkRange a n = .ok () := by
  rw [checkRange, if_neg (by omega)]

/-- `CheckRange` else names the lowest address of the range that is out of range. -/
theorem checkRange_error {a n : Nat} (h0 : n ≠ 0) (h : 0x1000 < a + n) : checkRange a n = .error (max a 0x1000) := by
  rw [checkRange, if_pos ⟨h0, by omega⟩]

/-- Everything `MemRead` can answer. -/
theorem memRead_cases (m : Memory) (a n : Nat) :
    ((n = 0 ∨ a + n ≤ 0x1000) ∧ memRead m a n = .ok (m.readList a n)) ∨
    (n ≠ 0 ∧ 0x1000 < a + n ∧ memRead m a n = .error (max a 0x1000)) := by
  by_cases h : n = 0 ∨ a + n ≤ 0x1000
  · exact .inl ⟨h, by rw [memRead, checkRange_ok h]⟩
  · exact .inr ⟨by omega, by omega, by rw [memRead, checkRange_error (by omega) (by omega)]⟩

/-- Everything `MemWrite` can answer. -/
theorem memWrite_cases (m : Memory) (a : Nat) (vs : List Byte) :
    ((vs = [] ∨ a + vs.length ≤ 0x1000) ∧ memWrite m a vs = .ok (m.writeList a vs)) ∨
    (vs ≠ [] ∧ 0x1000 < a + vs.length ∧ memWrite m a vs = .error (max a 0x1000)) := by
  by_cases h : vs.length = 0 ∨ a + vs.length ≤ 0x1000
  · exact .inl ⟨by simpa using h, by rw [memWrite, checkRange_ok h]⟩
  · rw [List.length_eq_zero_iff] at h
    refine .inr ⟨fun h' => h (.inl h'), by omega, ?_⟩
    rw [memWrite, checkRange_error (by simpa using fun h' => h (.inl h')) (by omega)]

/-- Everything a checked write keeps: the canonical form. -/
theorem memWrite_wf {m m' : Memory} {a : Nat} {vs : List Byte} (h : m.wf = true) (hw : memWrite m a vs = .ok m') :
    m'.wf = true := by
  rcases memWrite_cases m a vs with ⟨h1, h2⟩ | ⟨_, _, h2⟩
  · rw [h2] at hw
    obtain rfl := Except.ok.inj hw
    rcases h1 with rfl | h1
    · exact h
    · exact Memory.wf_writeList h vs h1
  · rw [h2] at hw
    cases hw

/-- Everything the fetch can answer (R76). -/
theorem fetch16_cases (m : Memory) (pc : Nat) :
    (pc ≤ 0xFFE ∧ fetch16 m pc = .ok (wordOfBytes (m.read pc) (m.read (pc + 1)))) ∨
    (0xFFF ≤ pc ∧ fetch16 m pc = .error (max pc 0x1000)) := by
  by_cases h : pc ≤ 0xFFE
  · exact .inl ⟨h, by rw [fetch16, checkRange_ok (by omega)]⟩
  · exact .inr ⟨by omega, by rw [fetch16, checkRange_error (by omega) (by omega)]⟩

end Sys2Proof.Machine
end

