-- ==== Sys2Proof/Laws/Ops.lean ====
section
/-! SUPPORT. For each shared operation, everything it can answer: stack, register lists, nibble operands, flags, the step cycle. -/

namespace Sys2Proof.Machine

/-! ### The call stack -/

/-- A push on a stack that is not full. -/
theorem State.push_of_lt {s : State} (ret : Word) (h : s.sp.val < 16) :
    s.push ret = some { s with stack := s.stack.set s.sp.val ret, sp := ⟨s.sp.val + 1, by omega⟩ } := dif_pos h

/-- A push on a full stack. -/
theorem State.push_full {s : State} (ret : Word) (h : s.sp.val = 16) : s.push ret = none :=
  dif_neg (by simp [h])

/-- A pop of an empty stack. -/
theorem State.pop_empty {s : State} (h : s.sp.val = 0) : s.pop = none := by
  obtain ⟨v, i, pc, stack, ⟨sp, hsp⟩, dt, st, key, disp, mem, run, draws⟩ := s
  obtain rfl : sp = 0 := h
  rfl

/-- A pop of a stack that is not empty. -/
theorem State.pop_of_pos {s : State} (h : 0 < s.sp.val) :
    s.pop = some (s.stack[s.sp.val - 1], { s with sp := ⟨s.sp.val - 1, by omega⟩ }) := by
  obtain ⟨v, i, pc, stack, ⟨sp, hsp⟩, dt, st, key, disp, mem, run, draws⟩ := s
  cases sp with
  | zero => exact absurd h (Nat.lt_irrefl 0)
  | succ j => rfl

/-- Everything a push can answer. -/
theorem State.push_cases (s : State) (ret : Word) :
    (∃ h : s.sp.val < 16,
      s.push ret = some { s with stack := s.stack.set s.sp.val ret, sp := ⟨s.sp.val + 1, by omega⟩ }) ∨
    (s.sp.val = 16 ∧ s.push ret = none) := by
  by_cases h : s.sp.val < 16
  · exact .inl ⟨h, s.push_of_lt ret h⟩
  · exact .inr ⟨by omega, s.push_full ret (by omega)⟩

/-- Everything a pop can answer. -/
theorem State.pop_cases (s : State) :
    (s.sp.val = 0 ∧ s.pop = none) ∨
    (0 < s.sp.val ∧ s.pop = some (s.stack[s.sp.val - 1], { s with sp := ⟨s.sp.val - 1, by omega⟩ })) := by
  by_cases h : s.sp.val = 0
  · exact .inl ⟨h, State.pop_empty h⟩
  · exact .inr ⟨by omega, State.pop_of_pos (by omega)⟩

/-! ### Register lists -/

/-- What a register reads as after a list is loaded from register k on. -/
theorem getElem_setRegsFrom (v : Vector Byte 16) (k : Nat) (bs : List Byte) (j : Nat) (hj : j < 16) :
    (setRegsFrom v k bs)[j] = if k ≤ j then bs.getD (j - k) v[j] else v[j] := by
  induction bs generalizing v k with
  | nil => simp [setRegsFrom]
  | cons b bs ih =>
    rw [setRegsFrom, ih]
    rcases Nat.lt_trichotomy j k with h | rfl | h
    · rw [if_neg (by omega), if_neg (by omega), Vector.getElem_setIfInBounds_ne _ (by omega)]
    · rw [if_neg (by omega), if_pos (le_refl j), Vector.getElem_setIfInBounds_self, Nat.sub_self]
      rfl
    · obtain ⟨d, rfl⟩ : ∃ d, j = k + 1 + d := ⟨j - (k + 1), by omega⟩
      rw [if_pos (by omega), if_pos (by omega), Vector.getElem_setIfInBounds_ne _ (by omega), Nat.add_sub_cancel_left,
        show k + 1 + d - k = d + 1 by omega, List.getD_cons_succ]

/-- What a register reads as after a list is loaded from V0 on (R226). -/
theorem State.reg_setRegs (s : State) (bs : List Byte) (k : RegIdx) :
    (s.setRegs bs).reg k = bs.getD k.val (s.reg k) := by
  rw [State.reg, State.setRegs, getElem_setRegsFrom, if_pos (Nat.zero_le _)]
  rfl

@[simp] theorem State.length_regsUpTo (s : State) (x : RegIdx) : (s.regsUpTo x).length = x.val + 1 := by
  simp [State.regsUpTo]

/-- The k-th byte of V0 to Vx is V[k] (R225). -/
theorem State.getD_regsUpTo (s : State) (x k : RegIdx) (d : Byte) (h : k ≤ x) : (s.regsUpTo x).getD k.val d = s.reg k := by
  have hk : k.val < (s.regsUpTo x).length := by rw [length_regsUpTo]; exact Nat.lt_succ_of_le h
  rw [List.getD_eq_getElem _ _ hk]
  simp [State.regsUpTo, State.reg]

/-! ### Operands and flags -/

/-- A nibble operand in range is itself, under either policy (R223). -/
theorem nibbleOperand_of_le {p : Config.NibblePolicy} {b : Byte} (h : b.toNat ≤ 0xF) :
    nibbleOperand p b = .ok ⟨b.toNat, by omega⟩ := by
  unfold nibbleOperand
  rw [if_pos h]
  congr 1
  exact Fin.ext (Nat.mod_eq_of_lt (by omega))

/-- A nibble operand out of range, under each policy (R223). -/
theorem nibbleOperand_of_gt {b : Byte} (h : 0xF < b.toNat) :
    nibbleOperand .fault b = .error b ∧ nibbleOperand .mask b = .ok (Fin.ofNat 16 b.toNat) := by
  simp [nibbleOperand, Nat.not_le.mpr h]

@[simp] theorem toNat_flagOf (c : Bool) : (flagOf c).toNat = if c then 1 else 0 := by cases c <;> rfl

@[simp] theorem toNat_addByte (a b : Byte) : (addByte a b).toNat = (a.toNat + b.toNat) % 256 := by
  simp [addByte]

@[simp] theorem toNat_subByte (a b : Byte) : (subByte a b).toNat = (a.toNat + 256 - b.toNat) % 256 := by
  simp [subByte]

@[simp] theorem toNat_shrByte (a : Byte) : (shrByte a).toNat = a.toNat / 2 := by
  simp only [shrByte, BitVec.toNat_ofNat]
  have := a.isLt
  omega

@[simp] theorem toNat_shrFlag (a : Byte) : (shrFlag a).toNat = a.toNat % 2 := by
  simp only [shrFlag, BitVec.toNat_ofNat]
  omega

@[simp] theorem toNat_shlByte (a : Byte) : (shlByte a).toNat = a.toNat * 2 % 256 := by
  simp [shlByte]

@[simp] theorem toNat_shlFlag (a : Byte) : (shlFlag a).toNat = a.toNat / 128 := by
  simp only [shlFlag, BitVec.toNat_ofNat]
  have := a.isLt
  omega

@[simp] theorem toNat_zextAddr (nnn : Addr12) : (zextAddr nnn).toNat = nnn.toNat := by
  simp only [zextAddr, BitVec.toNat_setWidth]
  have := nnn.isLt
  omega

@[simp] theorem length_bcdDigits (b : Byte) : (bcdDigits b).length = 3 := rfl

/-! ### Faults and the step cycle -/

@[simp] theorem Trap.record_pc (c : Trap) (pc : Word) (w : Option Word) : (c.record pc w).pc = pc := by cases c <;> rfl
@[simp] theorem Trap.record_word (c : Trap) (pc : Word) (w : Option Word) : (c.record pc w).word = w := by cases c <;> rfl

/-- Taking a fault writes Run and nothing else (R303). -/
theorem State.takeFault_frame (s : State) (c : Trap) (w : Option Word) : { s.takeFault c w with run := s.run } = s := rfl

/-- Everything a cycle can do: held, faulted, a fetch fault, a decode fault, or one execution of the decoded word (R108, R302). -/
theorem cycle_cases (ex : Instr → State → Result) (s : State) :
    (s.run ≠ .running ∧ cycle ex s = .next s) ∨
    (s.run = .running ∧ 0xFFF ≤ s.pc.toNat ∧
      cycle ex s = .next (s.takeFault (.memoryOutOfRange (max s.pc.toNat 0x1000)) none)) ∨
    (s.run = .running ∧ s.pc.toNat ≤ 0xFFE ∧ ∃ w, fetch16 s.mem s.pc.toNat = .ok w ∧
      ((∃ e, decode w = .error e ∧ cycle ex s = .next (s.takeFault .decodeError (some w))) ∨
       (∃ i, decode w = .ok i ∧ cycle ex s = ex i s))) := by
  cases hr : s.run with
  | awaitingKey x => exact .inl ⟨nofun, by rw [cycle, hr]⟩
  | faulted f => exact .inl ⟨nofun, by rw [cycle, hr]⟩
  | running =>
    rcases fetch16_cases s.mem s.pc.toNat with ⟨hpc, hf⟩ | ⟨hpc, hf⟩
    · refine .inr (.inr ⟨rfl, hpc, _, hf, ?_⟩)
      cases hd : decode (wordOfBytes (s.mem.read s.pc.toNat) (s.mem.read (s.pc.toNat + 1))) with
      | error e => exact .inl ⟨e, rfl, by simp only [cycle, hr, hf, hd]⟩
      | ok i => exact .inr ⟨i, rfl, by simp only [cycle, hr, hf, hd]⟩
    · exact .inr (.inl ⟨rfl, hpc, by simp only [cycle, hr, hf]⟩)

/-! ### The display -/

/-- A pixel after one pixel is inverted. -/
@[simp] theorem Display.pixel_flip (d : Display) (px qx : Fin 64) (py qy : Fin 32) :
    (d.flip px py).pixel qx qy = if qx = px ∧ qy = py then !d.pixel px py else d.pixel qx qy := by
  simp only [Display.pixel, Display.flip, Vector.getElem_set, Fin.ext_iff]
  by_cases hx : px.val = qx.val <;> by_cases hy : py.val = qy.val <;>
    simp [hx, hy, eq_comm]

/-- Displays with the same pixels are equal. -/
theorem Display.ext_pixel {d d' : Display} (h : ∀ px py, d.pixel px py = d'.pixel px py) : d = d' := by
  ext i hi j hj
  exact h ⟨i, hi⟩ ⟨j, hj⟩

@[simp] theorem pixel_clearDisplay (px : Fin 64) (py : Fin 32) : Display.pixel clearDisplay px py = false := by
  simp [Display.pixel, clearDisplay]

end Sys2Proof.Machine
end

