-- ==== Sys2Proof/Laws/Blit.lean ====
section
/-! SUPPORT. The sprite blit in closed form: after drawing, exactly the pixels under a set sprite bit are inverted, and the collision
says whether one of them was set. It rests on no two sprite bits falling on one pixel, since 8 ≤ 64 and 15 ≤ 32 (44_display.md
R250). -/

namespace Sys2Proof.Machine

/-- Whether sprite bit c of row r is set and falls on a pixel. -/
def bitHits (x0 y0 r : Nat) (row : Byte) (px : Fin 64) (py : Fin 32) (c : Nat) : Bool :=
  spriteBit row c && decide (px = spriteCol x0 c) && decide (py = spriteRow y0 r)

/-- Everything one sprite bit does. -/
theorem blitBit_spec (x0 y0 r : Nat) (row : Byte) (b : Blit) (c : Nat) :
    (∀ px py, (blitBit x0 y0 r row b c).disp.pixel px py = (b.disp.pixel px py ^^ bitHits x0 y0 r row px py c)) ∧
    (blitBit x0 y0 r row b c).coll = (b.coll || (spriteBit row c && b.disp.pixel (spriteCol x0 c) (spriteRow y0 r))) := by
  unfold blitBit
  cases hb : spriteBit row c
  · simp [bitHits, hb]
  · refine ⟨fun px py => ?_, by simp⟩
    simp only [if_true, Display.pixel_flip, bitHits, hb, Bool.true_and]
    by_cases hx : px = spriteCol x0 c <;> by_cases hy : py = spriteRow y0 r <;> simp [hx, hy]

/-- Everything a run of sprite bits of one row does, the bits falling on different columns. -/
theorem blitBits_spec (x0 y0 r : Nat) (row : Byte) (cs : List Nat) (hcs : (cs.map (spriteCol x0)).Nodup) (b : Blit) :
    (∀ px py, (cs.foldl (blitBit x0 y0 r row) b).disp.pixel px py =
      (b.disp.pixel px py ^^ cs.any (bitHits x0 y0 r row px py))) ∧
    (cs.foldl (blitBit x0 y0 r row) b).coll =
      (b.coll || cs.any fun c => spriteBit row c && b.disp.pixel (spriteCol x0 c) (spriteRow y0 r)) := by
  induction cs generalizing b with
  | nil => simp
  | cons c cs ih =>
    obtain ⟨hpix, hcoll⟩ := blitBit_spec x0 y0 r row b c
    rw [List.map_cons, List.nodup_cons] at hcs
    obtain ⟨ihp, ihc⟩ := ih hcs.2 (blitBit x0 y0 r row b c)
    have hne : ∀ d ∈ cs, spriteCol x0 d ≠ spriteCol x0 c := fun d hd h => hcs.1 (h ▸ List.mem_map_of_mem hd)
    refine ⟨fun px py => ?_, ?_⟩
    · rw [List.foldl_cons, ihp, hpix, List.any_cons]
      cases hc : bitHits x0 y0 r row px py c
      · simp
      · have hpx : px = spriteCol x0 c := by simp [bitHits] at hc; exact hc.1.2
        have : cs.any (bitHits x0 y0 r row px py) = false := by
          rw [List.any_eq_false]
          intro d hd
          simp [bitHits, hpx, (hne d hd).symm]
        simp [this]
    · rw [List.foldl_cons, ihc, hcoll, List.any_cons, Bool.or_assoc]
      congr 2
      rw [Bool.eq_iff_iff, List.any_eq_true, List.any_eq_true]
      refine exists_congr fun d => and_congr_right fun hd => ?_
      rw [hpix]
      simp [bitHits, hne d hd]

/-- Eight columns from any start are different columns of the grid. -/
theorem spriteCols_nodup (x0 : Nat) : ((List.range 8).map (spriteCol x0)).Nodup := by
  refine (List.nodup_map_iff_inj_on List.nodup_range).mpr fun c hc d hd h => ?_
  rw [List.mem_range] at hc hd
  have : (x0 + c) % 64 = (x0 + d) % 64 := congrArg Fin.val h
  omega

/-- Whether a row of a sprite has a set bit on a pixel. -/
def rowHits (x0 y0 r : Nat) (row : Byte) (px : Fin 64) (py : Fin 32) : Bool := (List.range 8).any (bitHits x0 y0 r row px py)

/-- Whether one of the rows from r on has a set bit on a pixel. -/
def rowsHit (x0 y0 : Nat) (px : Fin 64) (py : Fin 32) : Nat → List Byte → Bool
  | _, [] => false
  | r, row :: rows => rowHits x0 y0 r row px py || rowsHit x0 y0 px py (r + 1) rows

/-- A row hits a pixel only on the row's own line. -/
theorem rowHits_line {x0 y0 r : Nat} {row : Byte} {px : Fin 64} {py : Fin 32} (h : rowHits x0 y0 r row px py = true) :
    py = spriteRow y0 r := by
  obtain ⟨c, _, hc⟩ := List.any_eq_true.mp h
  simp [bitHits] at hc
  exact hc.2

/-- Everything one sprite row does. -/
theorem blitRow_spec (x0 y0 r : Nat) (row : Byte) (b : Blit) :
    (∀ px py, (blitRow x0 y0 r row b).disp.pixel px py = (b.disp.pixel px py ^^ rowHits x0 y0 r row px py)) ∧
    ((blitRow x0 y0 r row b).coll = true ↔
      b.coll = true ∨ ∃ px py, rowHits x0 y0 r row px py = true ∧ b.disp.pixel px py = true) := by
  obtain ⟨hp, hc⟩ := blitBits_spec x0 y0 r row (List.range 8) (spriteCols_nodup x0) b
  refine ⟨hp, ?_⟩
  rw [blitRow, hc, Bool.or_eq_true, List.any_eq_true]
  refine or_congr_right ⟨?_, ?_⟩
  · rintro ⟨c, hm, h⟩
    rw [Bool.and_eq_true] at h
    exact ⟨_, _, List.any_eq_true.mpr ⟨c, hm, by simp [bitHits, h.1]⟩, h.2⟩
  · rintro ⟨px, py, h, hd⟩
    obtain ⟨c, hm, h⟩ := List.any_eq_true.mp h
    simp only [bitHits, Bool.and_eq_true, decide_eq_true_eq] at h
    exact ⟨c, hm, by rw [Bool.and_eq_true, ← h.1.2, ← h.2]; exact ⟨h.1.1, hd⟩⟩

/-- A later row of a sprite of at most 32 rows is on another line. -/
theorem rowsHit_line {x0 y0 r : Nat} {px : Fin 64} {rows : List Byte} (k : Nat) (hk : k < r) (hr : r + rows.length ≤ k + 32) :
    rowsHit x0 y0 px (spriteRow y0 k) r rows = false := by
  induction rows generalizing r with
  | nil => rfl
  | cons row rows ih =>
    simp only [List.length_cons] at hr
    rw [rowsHit, ih (by omega) (by omega), Bool.or_false, Bool.eq_false_iff]
    intro h
    have : (y0 + k) % 32 = (y0 + r) % 32 := congrArg Fin.val (rowHits_line h)
    omega

/-- Everything a sprite of at most 32 rows does. -/
theorem blitRows_spec (x0 y0 r : Nat) (rows : List Byte) (hr : rows.length ≤ 32) (b : Blit) :
    (∀ px py, (blitRows x0 y0 r rows b).disp.pixel px py = (b.disp.pixel px py ^^ rowsHit x0 y0 px py r rows)) ∧
    ((blitRows x0 y0 r rows b).coll = true ↔
      b.coll = true ∨ ∃ px py, rowsHit x0 y0 px py r rows = true ∧ b.disp.pixel px py = true) := by
  induction rows generalizing r b with
  | nil => simp [blitRows, rowsHit]
  | cons row rows ih =>
    simp only [List.length_cons] at hr
    obtain ⟨hp, hc⟩ := blitRow_spec x0 y0 r row b
    obtain ⟨ihp, ihc⟩ := ih (r + 1) (by omega) (blitRow x0 y0 r row b)
    have hdis : ∀ px py, rowHits x0 y0 r row px py = true → rowsHit x0 y0 px py (r + 1) rows = false := by
      intro px py h
      rw [rowHits_line h]
      exact rowsHit_line r (by omega) (by omega)
    refine ⟨fun px py => ?_, ?_⟩
    · rw [blitRows, ihp, hp, rowsHit]
      cases h : rowHits x0 y0 r row px py
      · simp
      · simp [hdis px py h]
    · rw [blitRows, ihc, hc, or_assoc]
      refine or_congr_right ⟨?_, ?_⟩
      · rintro (⟨px, py, h, hd⟩ | ⟨px, py, h, hd⟩)
        · exact ⟨px, py, by simp [rowsHit, h], hd⟩
        · refine ⟨px, py, by simp [rowsHit, h], ?_⟩
          rw [hp] at hd
          cases hh : rowHits x0 y0 r row px py
          · simpa [hh] using hd
          · rw [hdis px py hh] at h
            cases h
      · rintro ⟨px, py, h, hd⟩
        rw [rowsHit, Bool.or_eq_true] at h
        cases hh : rowHits x0 y0 r row px py
        · refine .inr ⟨px, py, h.resolve_left (by simp [hh]), ?_⟩
          rw [hp, hh, Bool.xor_false]
          exact hd
        · exact .inl ⟨px, py, hh, hd⟩

/-- The hits from row r on are the pixels a sprite whose first row is drawn at y0 + r covers. -/
theorem rowsHit_iff (x0 y0 r : Nat) (rows : List Byte) (px : Fin 64) (py : Fin 32) :
    rowsHit x0 y0 px py r rows = true ↔ SpriteCovers rows x0 (y0 + r) px py := by
  induction rows generalizing r with
  | nil => simp [rowsHit, SpriteCovers]
  | cons row rows ih =>
    rw [rowsHit, Bool.or_eq_true, ih, rowHits, List.any_eq_true]
    constructor
    · rintro (⟨c, hc, h⟩ | ⟨q, c, hc, ⟨hq, hbit⟩, hx, hy⟩)
      · simp only [bitHits, Bool.and_eq_true, decide_eq_true_eq] at h
        exact ⟨0, c, List.mem_range.mp hc, ⟨Nat.succ_pos _, h.1.1⟩, congrArg Fin.val h.1.2, congrArg Fin.val h.2⟩
      · exact ⟨q + 1, c, hc, ⟨by simpa using hq, hbit⟩, hx, by rw [hy]; congr 1; omega⟩
    · rintro ⟨q, c, hc, ⟨hq, hbit⟩, hx, hy⟩
      cases q with
      | zero =>
        refine .inl ⟨c, List.mem_range.mpr hc, ?_⟩
        simp only [bitHits, Bool.and_eq_true, decide_eq_true_eq]
        exact ⟨⟨hbit, Fin.ext hx⟩, Fin.ext hy⟩
      | succ q => exact .inr ⟨q, c, hc, ⟨by simpa using hq, hbit⟩, hx, by rw [hy]; congr 1; omega⟩

/-- Everything a sprite drawn from its first row does (R250): the covered pixels are inverted, and the collision says whether one of
them was set. -/
theorem blit_spec (x0 y0 : Nat) (rows : List Byte) (hr : rows.length ≤ 32) (d : Display) :
    (∀ px py, (blitRows x0 y0 0 rows ⟨d, false⟩).disp.pixel px py = true ↔
      ¬(d.pixel px py = true ↔ SpriteCovers rows x0 y0 px py)) ∧
    ((blitRows x0 y0 0 rows ⟨d, false⟩).coll = true ↔ ∃ px py, d.pixel px py = true ∧ SpriteCovers rows x0 y0 px py) := by
  obtain ⟨hp, hc⟩ := blitRows_spec x0 y0 0 rows hr ⟨d, false⟩
  have hh : ∀ px py, rowsHit x0 y0 px py 0 rows = true ↔ SpriteCovers rows x0 y0 px py := fun px py => by
    simpa using rowsHit_iff x0 y0 0 rows px py
  refine ⟨fun px py => ?_, ?_⟩
  · rw [hp, ← hh]
    cases d.pixel px py <;> cases rowsHit x0 y0 px py 0 rows <;> simp
  · rw [hc]
    simp [← hh, and_comm]

end Sys2Proof.Machine
end

