-- ==== Sys2Proof/Laws/Encoding.lean ====
section
/-! SUPPORT. The fields and the formats of an instruction word as numbers, so that encoding facts are arithmetic. -/

namespace Sys2Proof

open Sys2Proof.Machine

/-! ### The fields of a word -/

theorem toNat_opOf (w : Word) : (opOf w).toNat = w.toNat / 4096 := by
  have := w.isLt
  simp only [opOf, BitVec.extractLsb'_toNat, Nat.shiftRight_eq_div_pow]
  omega

theorem val_xOf (w : Word) : (xOf w).val = w.toNat / 256 % 16 := by
  show (w.extractLsb' 8 4).toNat = _
  simp only [BitVec.extractLsb'_toNat, Nat.shiftRight_eq_div_pow]

theorem val_yOf (w : Word) : (yOf w).val = w.toNat / 16 % 16 := by
  show (w.extractLsb' 4 4).toNat = _
  simp only [BitVec.extractLsb'_toNat, Nat.shiftRight_eq_div_pow]

theorem toNat_nOf (w : Word) : (nOf w).toNat = w.toNat % 16 := by
  simp only [nOf, BitVec.extractLsb'_toNat, Nat.shiftRight_eq_div_pow]
  omega

theorem toNat_kkOf (w : Word) : (kkOf w).toNat = w.toNat % 256 := by
  simp only [kkOf, BitVec.extractLsb'_toNat, Nat.shiftRight_eq_div_pow]
  omega

theorem toNat_nnnOf (w : Word) : (nnnOf w).toNat = w.toNat % 4096 := by
  simp only [nnnOf, BitVec.extractLsb'_toNat, Nat.shiftRight_eq_div_pow]
  omega

/-! ### Concatenation -/

/-- The number of a concatenation, the left part in the high bits (00_scope.md R9). -/
theorem toNat_append_eq {m n : Nat} (a : BitVec m) (b : BitVec n) : (a ++ b).toNat = a.toNat * 2 ^ n + b.toNat := by
  rw [BitVec.toNat_append, Nat.shiftLeft_eq, Nat.mul_comm, Nat.two_pow_add_eq_or_of_lt b.isLt]

theorem toNat_regBits (x : RegIdx) : (regBits x).toNat = x.val := rfl

theorem toNat_formatNNN (op : Nibble) (nnn : Addr12) : (formatNNN op nnn).toNat = op.toNat * 4096 + nnn.toNat :=
  toNat_append_eq op nnn

theorem toNat_formatXKK (op : Nibble) (x : RegIdx) (kk : Byte) :
    (formatXKK op x kk).toNat = op.toNat * 4096 + x.val * 256 + kk.toNat := by
  have h : (formatXKK op x kk).toNat = (op ++ regBits x).toNat * 2 ^ 8 + kk.toNat := toNat_append_eq (op ++ regBits x) kk
  rw [h, toNat_append_eq op (regBits x), toNat_regBits x]
  ring

theorem toNat_formatXYN (op : Nibble) (x y : RegIdx) (n : Nibble) :
    (formatXYN op x y n).toNat = op.toNat * 4096 + x.val * 256 + y.val * 16 + n.toNat := by
  have h : (formatXYN op x y n).toNat = (op ++ regBits x ++ regBits y).toNat * 2 ^ 4 + n.toNat :=
    toNat_append_eq (op ++ regBits x ++ regBits y) n
  rw [h, toNat_append_eq (op ++ regBits x) (regBits y), toNat_append_eq op (regBits x), toNat_regBits x,
    toNat_regBits y]
  ring

/-- The bytes of a fetched word (20_memory.md R76). -/
theorem toNat_wordOfBytes (hi lo : Byte) : (wordOfBytes hi lo).toNat = hi.toNat * 256 + lo.toNat :=
  toNat_append_eq hi lo

/-- The two bytes of a word, high byte first, are the word. -/
theorem wordOfBytes_hi_lo (w : Word) : wordOfBytes (hiByte w) (loByte w) = w := by
  apply BitVec.eq_of_toNat_eq
  have := w.isLt
  simp only [toNat_wordOfBytes, hiByte, loByte, BitVec.extractLsb'_toNat, Nat.shiftRight_eq_div_pow]
  omega

/-! ### The fields of a format -/

/-- Two words with the same number are the same word. -/
theorem word_eq {w w' : Word} (h : w.toNat = w'.toNat) : w = w' := BitVec.eq_of_toNat_eq h

theorem fields_formatNNN (op : Nibble) (nnn : Addr12) :
    (opOf (formatNNN op nnn)).toNat = op.toNat ∧ nnnOf (formatNNN op nnn) = nnn := by
  have := nnn.isLt
  refine ⟨?_, BitVec.eq_of_toNat_eq ?_⟩ <;> simp only [toNat_opOf, toNat_nnnOf, toNat_formatNNN] <;> omega

theorem fields_formatXKK (op : Nibble) (x : RegIdx) (kk : Byte) :
    (opOf (formatXKK op x kk)).toNat = op.toNat ∧ xOf (formatXKK op x kk) = x ∧ kkOf (formatXKK op x kk) = kk := by
  have := kk.isLt
  refine ⟨?_, Fin.ext ?_, BitVec.eq_of_toNat_eq ?_⟩ <;>
    simp only [toNat_opOf, val_xOf, toNat_kkOf, toNat_formatXKK] <;> omega

theorem fields_formatXYN (op : Nibble) (x y : RegIdx) (n : Nibble) :
    (opOf (formatXYN op x y n)).toNat = op.toNat ∧ xOf (formatXYN op x y n) = x ∧ yOf (formatXYN op x y n) = y ∧
      nOf (formatXYN op x y n) = n := by
  have := n.isLt
  refine ⟨?_, Fin.ext ?_, Fin.ext ?_, BitVec.eq_of_toNat_eq ?_⟩ <;>
    simp only [toNat_opOf, val_xOf, val_yOf, toNat_nOf, toNat_formatXYN] <;> omega

/-! ### Masks -/

/-- A bit of a word as arithmetic. -/
theorem getLsbD_eq_div (w : Word) (i : Nat) : w.getLsbD i = decide (w.toNat / 2 ^ i % 2 = 1) :=
  Nat.testBit_eq_decide_div_mod_eq

/-- A masked word, bit by bit: under the mask the word's bits, elsewhere none. -/
theorem and_mask_eq {m w v : Word}
    (h : ∀ i : Fin 16, if m.getLsbD i.val = true then w.toNat / 2 ^ i.val % 2 = v.toNat / 2 ^ i.val % 2
      else v.getLsbD i.val = false) : w &&& m = v := by
  apply BitVec.eq_of_getLsbD_eq
  intro i hi
  have hb := h ⟨i, hi⟩
  rw [BitVec.getLsbD_and]
  split at hb
  · rename_i hm
    simp only at hb hm
    rw [hm, Bool.and_true, getLsbD_eq_div, getLsbD_eq_div, hb]
  · rename_i hm
    simp only [Bool.not_eq_true] at hb hm
    rw [hm, Bool.and_false, hb]

end Sys2Proof
end

