-- ==== Sys2Proof/Laws/Faults.lean ====
section
/-! SUPPORT. Everything an instruction that faults can do: one inversion lemma over all meanings (60_exceptions.md R301, R303). -/

namespace Sys2Proof.Machine

/-- A nibble operand that is an error is the register's value, above 0xF (R223). -/
theorem nibbleOperand_error {p : Config.NibblePolicy} {b v : Byte} (h : nibbleOperand p b = .error v) :
    v = b ∧ 0xF < b.toNat := by
  by_cases hb : b.toNat ≤ 0xF
  · rw [nibbleOperand_of_le hb] at h
    cases h
  · cases p
    · rw [(nibbleOperand_of_gt (by omega)).1] at h
      cases h
      exact ⟨rfl, by omega⟩
    · rw [(nibbleOperand_of_gt (by omega)).2] at h
      cases h

/-- What a trap raised at execute says of the instruction and the state (R140, R142, R144, R223, R74). -/
def Trap.Explains (c : Trap) (i : Instr) (s : State) : Prop :=
  match c with
  | .decodeError => ∃ nnn, i = .sys nnn
  | .stackUnderflow => i = .ret ∧ s.sp.val = 0
  | .stackOverflow => (∃ nnn, i = .call nnn) ∧ s.sp.val = 16
  | .operandOutOfRange v => i.faultKind = some .operandOutOfRange ∧ 0xF < v.toNat
  | .memoryOutOfRange a => i.faultKind = some .memoryOutOfRange ∧ 0x1000 ≤ a ∧ a < 0x10000

/-- An instruction that leaves a running core faulted took one trap, wrote nothing else, and the trap is one its rule lists. -/
theorem exec_fault {i : Instr} {s t : State} {f : FaultRecord} (hr : s.run = .running) (h : exec i s = .next t)
    (hf : t.run = .faulted f) :
    ∃ c : Trap, t = s.takeFault c (some (encode i)) ∧ f = c.record s.pc (some (encode i)) ∧ c.Explains i s := by
  have hI := s.i.isLt
  cases i <;> simp only [exec] at h <;> try (cases h; revert hf; simp [hr]; done)
  case sys nnn =>
    cases h
    cases hf
    exact ⟨.decodeError, rfl, rfl, nnn, rfl⟩
  case ret =>
    rcases s.pop_cases with ⟨h0, h1⟩ | ⟨h0, h1⟩ <;> simp only [execRet, h1] at h <;> cases h
    · cases hf
      exact ⟨.stackUnderflow, rfl, rfl, rfl, h0⟩
    · simp [hr] at hf
  case call nnn =>
    rcases s.push_cases (s.pc + 2#16) with ⟨h0, h1⟩ | ⟨h0, h1⟩ <;> simp only [execCall, h1] at h <;> cases h
    · simp [hr] at hf
    · cases hf
      exact ⟨.stackOverflow, rfl, rfl, ⟨_, rfl⟩, h0⟩
  case skp x =>
    simp only [execSkp, execSkpUnder] at h
    split at h <;> cases h
    · rename_i h'
      obtain ⟨rfl, hb⟩ := nibbleOperand_error h'
      cases hf
      exact ⟨.operandOutOfRange _, rfl, rfl, rfl, hb⟩
    · simp [hr] at hf
  case sknp x =>
    simp only [execSknp, execSknpUnder] at h
    split at h <;> cases h
    · rename_i h'
      obtain ⟨rfl, hb⟩ := nibbleOperand_error h'
      cases hf
      exact ⟨.operandOutOfRange _, rfl, rfl, rfl, hb⟩
    · simp [hr] at hf
  case ldFVx x =>
    simp only [execLdFVx, execLdFVxUnder] at h
    split at h <;> cases h
    · rename_i h'
      obtain ⟨rfl, hb⟩ := nibbleOperand_error h'
      cases hf
      exact ⟨.operandOutOfRange _, rfl, rfl, rfl, hb⟩
    · simp [hr] at hf
  case drw x y n =>
    rcases memRead_cases s.mem s.i.toNat n.toNat with ⟨h0, h1⟩ | ⟨h0, h2, h1⟩ <;> simp only [execDrw, h1] at h <;> cases h
    · simp [hr] at hf
    · cases hf
      refine ⟨.memoryOutOfRange _, rfl, rfl, ?_, by omega, by omega⟩
      rw [Instr.faultKind, if_neg fun hn => h0 (by rw [hn]; rfl)]
  case ldBVx x =>
    rcases memWrite_cases s.mem s.i.toNat (bcdDigits (s.reg x)) with ⟨h0, h1⟩ | ⟨h0, h2, h1⟩ <;>
      simp only [execLdBVx, h1] at h <;> cases h
    · simp [hr] at hf
    · cases hf
      exact ⟨.memoryOutOfRange _, rfl, rfl, rfl, by omega, by omega⟩
  case ldMemVx x =>
    rcases memWrite_cases s.mem s.i.toNat (s.regsUpTo x) with ⟨h0, h1⟩ | ⟨h0, h2, h1⟩ <;>
      simp only [execLdMemVx, execLdMemVxUnder, h1] at h <;> cases h
    · simp [hr] at hf
    · cases hf
      exact ⟨.memoryOutOfRange _, rfl, rfl, rfl, by omega, by omega⟩
  case ldVxMem x =>
    rcases memRead_cases s.mem s.i.toNat (x.val + 1) with ⟨h0, h1⟩ | ⟨h0, h2, h1⟩ <;>
      simp only [execLdVxMem, execLdVxMemUnder, h1] at h <;> cases h
    · simp [hr] at hf
    · cases hf
      exact ⟨.memoryOutOfRange _, rfl, rfl, rfl, by omega, by omega⟩

end Sys2Proof.Machine
end

