-- ==== Sys2Proof/Laws/PerInstr.lean ====
section
/-! SUPPORT. The per-instruction family `TableRow`: the word of an instruction has the fixed bits of its row of
spec/opcode_table.json. -/

namespace Sys2Proof.Laws.TableRow

open Sys2Proof.Machine

/-- The instruction's own word stands in the instruction's row. -/
def Statement (i : Instr) : Prop := (tableRow i).has (encode i) = true

/-- A word stands in a row where its masked bits are the row's. -/
theorem of_and_eq {i : Instr} (h : encode i &&& (tableRow i).mask = (tableRow i).value) : Statement i := by
  rw [Statement, Row.has, h, beq_self_eq_true]

theorem cls : Statement .cls := rfl

theorem ret : Statement .ret := rfl

theorem sys (nnn : Addr12) : Statement (.sys nnn) := by
  refine of_and_eq (and_mask_eq fun b => ?_)
  rw [show encode (.sys nnn) = formatNNN 0x0#4 nnn from rfl, toNat_formatNNN]
  fin_cases b <;> simp [tableRow] <;> omega

theorem jp (nnn : Addr12) : Statement (.jp nnn) := by
  refine of_and_eq (and_mask_eq fun b => ?_)
  rw [show encode (.jp nnn) = formatNNN 0x1#4 nnn from rfl, toNat_formatNNN]
  fin_cases b <;> simp [tableRow] <;> omega

theorem call (nnn : Addr12) : Statement (.call nnn) := by
  refine of_and_eq (and_mask_eq fun b => ?_)
  rw [show encode (.call nnn) = formatNNN 0x2#4 nnn from rfl, toNat_formatNNN]
  fin_cases b <;> simp [tableRow] <;> omega

theorem seByte (x : RegIdx) (kk : Byte) : Statement (.seByte x kk) := by
  refine of_and_eq (and_mask_eq fun b => ?_)
  rw [show encode (.seByte x kk) = formatXKK 0x3#4 x kk from rfl, toNat_formatXKK]
  fin_cases b <;> simp [tableRow] <;> omega

theorem sneByte (x : RegIdx) (kk : Byte) : Statement (.sneByte x kk) := by
  refine of_and_eq (and_mask_eq fun b => ?_)
  rw [show encode (.sneByte x kk) = formatXKK 0x4#4 x kk from rfl, toNat_formatXKK]
  fin_cases b <;> simp [tableRow] <;> omega

theorem seReg (x y : RegIdx) : Statement (.seReg x y) := by
  refine of_and_eq (and_mask_eq fun b => ?_)
  rw [show encode (.seReg x y) = formatXYN 0x5#4 x y 0x0#4 from rfl, toNat_formatXYN]
  fin_cases b <;> simp [tableRow] <;> omega

theorem ldByte (x : RegIdx) (kk : Byte) : Statement (.ldByte x kk) := by
  refine of_and_eq (and_mask_eq fun b => ?_)
  rw [show encode (.ldByte x kk) = formatXKK 0x6#4 x kk from rfl, toNat_formatXKK]
  fin_cases b <;> simp [tableRow] <;> omega

theorem addByte (x : RegIdx) (kk : Byte) : Statement (.addByte x kk) := by
  refine of_and_eq (and_mask_eq fun b => ?_)
  rw [show encode (.addByte x kk) = formatXKK 0x7#4 x kk from rfl, toNat_formatXKK]
  fin_cases b <;> simp [tableRow] <;> omega

theorem ldReg (x y : RegIdx) : Statement (.ldReg x y) := by
  refine of_and_eq (and_mask_eq fun b => ?_)
  rw [show encode (.ldReg x y) = formatXYN 0x8#4 x y 0x0#4 from rfl, toNat_formatXYN]
  fin_cases b <;> simp [tableRow] <;> omega

theorem orReg (x y : RegIdx) : Statement (.orReg x y) := by
  refine of_and_eq (and_mask_eq fun b => ?_)
  rw [show encode (.orReg x y) = formatXYN 0x8#4 x y 0x1#4 from rfl, toNat_formatXYN]
  fin_cases b <;> simp [tableRow] <;> omega

theorem andReg (x y : RegIdx) : Statement (.andReg x y) := by
  refine of_and_eq (and_mask_eq fun b => ?_)
  rw [show encode (.andReg x y) = formatXYN 0x8#4 x y 0x2#4 from rfl, toNat_formatXYN]
  fin_cases b <;> simp [tableRow] <;> omega

theorem xorReg (x y : RegIdx) : Statement (.xorReg x y) := by
  refine of_and_eq (and_mask_eq fun b => ?_)
  rw [show encode (.xorReg x y) = formatXYN 0x8#4 x y 0x3#4 from rfl, toNat_formatXYN]
  fin_cases b <;> simp [tableRow] <;> omega

theorem addReg (x y : RegIdx) : Statement (.addReg x y) := by
  refine of_and_eq (and_mask_eq fun b => ?_)
  rw [show encode (.addReg x y) = formatXYN 0x8#4 x y 0x4#4 from rfl, toNat_formatXYN]
  fin_cases b <;> simp [tableRow] <;> omega

theorem subReg (x y : RegIdx) : Statement (.subReg x y) := by
  refine of_and_eq (and_mask_eq fun b => ?_)
  rw [show encode (.subReg x y) = formatXYN 0x8#4 x y 0x5#4 from rfl, toNat_formatXYN]
  fin_cases b <;> simp [tableRow] <;> omega

theorem shr (x y : RegIdx) : Statement (.shr x y) := by
  refine of_and_eq (and_mask_eq fun b => ?_)
  rw [show encode (.shr x y) = formatXYN 0x8#4 x y 0x6#4 from rfl, toNat_formatXYN]
  fin_cases b <;> simp [tableRow] <;> omega

theorem subnReg (x y : RegIdx) : Statement (.subnReg x y) := by
  refine of_and_eq (and_mask_eq fun b => ?_)
  rw [show encode (.subnReg x y) = formatXYN 0x8#4 x y 0x7#4 from rfl, toNat_formatXYN]
  fin_cases b <;> simp [tableRow] <;> omega

theorem shl (x y : RegIdx) : Statement (.shl x y) := by
  refine of_and_eq (and_mask_eq fun b => ?_)
  rw [show encode (.shl x y) = formatXYN 0x8#4 x y 0xE#4 from rfl, toNat_formatXYN]
  fin_cases b <;> simp [tableRow] <;> omega

theorem sneReg (x y : RegIdx) : Statement (.sneReg x y) := by
  refine of_and_eq (and_mask_eq fun b => ?_)
  rw [show encode (.sneReg x y) = formatXYN 0x9#4 x y 0x0#4 from rfl, toNat_formatXYN]
  fin_cases b <;> simp [tableRow] <;> omega

theorem ldI (nnn : Addr12) : Statement (.ldI nnn) := by
  refine of_and_eq (and_mask_eq fun b => ?_)
  rw [show encode (.ldI nnn) = formatNNN 0xA#4 nnn from rfl, toNat_formatNNN]
  fin_cases b <;> simp [tableRow] <;> omega

theorem jpV0 (nnn : Addr12) : Statement (.jpV0 nnn) := by
  refine of_and_eq (and_mask_eq fun b => ?_)
  rw [show encode (.jpV0 nnn) = formatNNN 0xB#4 nnn from rfl, toNat_formatNNN]
  fin_cases b <;> simp [tableRow] <;> omega

theorem rnd (x : RegIdx) (kk : Byte) : Statement (.rnd x kk) := by
  refine of_and_eq (and_mask_eq fun b => ?_)
  rw [show encode (.rnd x kk) = formatXKK 0xC#4 x kk from rfl, toNat_formatXKK]
  fin_cases b <;> simp [tableRow] <;> omega

theorem drw (x y : RegIdx) (n : Nibble) : Statement (.drw x y n) := by
  refine of_and_eq (and_mask_eq fun b => ?_)
  rw [show encode (.drw x y n) = formatXYN 0xD#4 x y n from rfl, toNat_formatXYN]
  fin_cases b <;> simp [tableRow] <;> omega

theorem skp (x : RegIdx) : Statement (.skp x) := by
  refine of_and_eq (and_mask_eq fun b => ?_)
  rw [show encode (.skp x) = formatXKK 0xE#4 x 0x9E#8 from rfl, toNat_formatXKK]
  fin_cases b <;> simp [tableRow] <;> omega

theorem sknp (x : RegIdx) : Statement (.sknp x) := by
  refine of_and_eq (and_mask_eq fun b => ?_)
  rw [show encode (.sknp x) = formatXKK 0xE#4 x 0xA1#8 from rfl, toNat_formatXKK]
  fin_cases b <;> simp [tableRow] <;> omega

theorem ldVxDt (x : RegIdx) : Statement (.ldVxDt x) := by
  refine of_and_eq (and_mask_eq fun b => ?_)
  rw [show encode (.ldVxDt x) = formatXKK 0xF#4 x 0x07#8 from rfl, toNat_formatXKK]
  fin_cases b <;> simp [tableRow] <;> omega

theorem ldVxK (x : RegIdx) : Statement (.ldVxK x) := by
  refine of_and_eq (and_mask_eq fun b => ?_)
  rw [show encode (.ldVxK x) = formatXKK 0xF#4 x 0x0A#8 from rfl, toNat_formatXKK]
  fin_cases b <;> simp [tableRow] <;> omega

theorem ldDtVx (x : RegIdx) : Statement (.ldDtVx x) := by
  refine of_and_eq (and_mask_eq fun b => ?_)
  rw [show encode (.ldDtVx x) = formatXKK 0xF#4 x 0x15#8 from rfl, toNat_formatXKK]
  fin_cases b <;> simp [tableRow] <;> omega

theorem ldStVx (x : RegIdx) : Statement (.ldStVx x) := by
  refine of_and_eq (and_mask_eq fun b => ?_)
  rw [show encode (.ldStVx x) = formatXKK 0xF#4 x 0x18#8 from rfl, toNat_formatXKK]
  fin_cases b <;> simp [tableRow] <;> omega

theorem addIVx (x : RegIdx) : Statement (.addIVx x) := by
  refine of_and_eq (and_mask_eq fun b => ?_)
  rw [show encode (.addIVx x) = formatXKK 0xF#4 x 0x1E#8 from rfl, toNat_formatXKK]
  fin_cases b <;> simp [tableRow] <;> omega

theorem ldFVx (x : RegIdx) : Statement (.ldFVx x) := by
  refine of_and_eq (and_mask_eq fun b => ?_)
  rw [show encode (.ldFVx x) = formatXKK 0xF#4 x 0x29#8 from rfl, toNat_formatXKK]
  fin_cases b <;> simp [tableRow] <;> omega

theorem ldBVx (x : RegIdx) : Statement (.ldBVx x) := by
  refine of_and_eq (and_mask_eq fun b => ?_)
  rw [show encode (.ldBVx x) = formatXKK 0xF#4 x 0x33#8 from rfl, toNat_formatXKK]
  fin_cases b <;> simp [tableRow] <;> omega

theorem ldMemVx (x : RegIdx) : Statement (.ldMemVx x) := by
  refine of_and_eq (and_mask_eq fun b => ?_)
  rw [show encode (.ldMemVx x) = formatXKK 0xF#4 x 0x55#8 from rfl, toNat_formatXKK]
  fin_cases b <;> simp [tableRow] <;> omega

theorem ldVxMem (x : RegIdx) : Statement (.ldVxMem x) := by
  refine of_and_eq (and_mask_eq fun b => ?_)
  rw [show encode (.ldVxMem x) = formatXKK 0xF#4 x 0x65#8 from rfl, toNat_formatXKK]
  fin_cases b <;> simp [tableRow] <;> omega

end Sys2Proof.Laws.TableRow
end

