-- ==== Sys2Proof/Tests/Slice0.lean ====
section
/-! SUPPORT. The model's own tests. Expected results are the vectors of spec/95_test_vectors.md (the row's id is in each docstring) or
the encodings of spec/opcode_table.json, and the witnesses show that the hypotheses of each statement can be met together. -/

namespace Sys2Proof.Tests

open Sys2Proof Sys2Proof.Machine

/-! ### Small states -/

/-- The reset state with some registers set. -/
def withRegs (rs : List (RegIdx × Byte)) : State := rs.foldl (fun s r => s.setReg r.1 r.2) State.reset

/-- The state after one `single_step` on a word placed at PC. -/
def after (w : Nat) (s : State) : State := (singleStep (s.withFetchWord 16 w)).2

/-- Whether one step on a word placed at PC latches this record and changes nothing else. -/
def faultsAs (w : Nat) (s : State) (f : FaultRecord) : Bool :=
  decide (after w s = { s.withFetchWord 16 w with run := .faulted f })

/-- The state a result answers. -/
def answered : Result → Option State
  | .next t => some t
  | .fault _ => none
  | .refused _ => none

/-- The lit pixels, by column and then row. -/
def lit (s : State) : List (Nat × Nat) :=
  (List.finRange 64).flatMap fun px => ((List.finRange 32).filter fun py => s.disp.pixel px py).map fun py => (px.val, py.val)

/-- The reset state with a full stack. -/
def fullStack : State := { State.reset with stack := Vector.replicate 16 0x0202#16, sp := 16 }

/-- A state that awaits a key for V3 at 0x210. -/
def awaiting : State := { (State.reset.setPc 0x210#16).withFetchWord 16 0xF30A with run := .awaitingKey 3 }

/-- A state that is faulted by 0000 at 0x200. -/
def faulted : State := { State.reset with run := .faulted ⟨.decodeError, 0x200#16, some 0x0000#16, none, none⟩ }

/-- Every parameter at its alternative value. -/
def alternative : Config.Params where
  sysPolicy     := .noOp
  shiftSource   := .vy
  logicVfReset  := true
  jumpOffsetReg := .vx
  memIIncrement := true
  nibblePolicy  := .mask
  resetRegs     := .arbitrary (Vector.replicate 16 0xA5#8) 0x1234#16

/-! ### WellFormed refuses what is no instruction -/

/-- SYS with the word of CLS (R105). -/
theorem test_wellFormed_refuses_sys_of_cls : (Instr.sys 0x0E0#12).wellFormed = false := by decide
/-- SYS with the word of RET (R105). -/
theorem test_wellFormed_refuses_sys_of_ret : (Instr.sys 0x0EE#12).wellFormed = false := by decide

/-! ### Decoding: a word written out for each constructor, from the patterns of spec/opcode_table.json -/

theorem test_decode_family_0 :
    decodeTableWord 16 0x00E0 = some .cls ∧ decodeTableWord 16 0x00EE = some .ret ∧
    decodeTableWord 16 0x00E1 = some (.sys 0x0E1#12) ∧ decodeTableWord 16 0x0000 = some (.sys 0x000#12) := by decide

theorem test_decode_families_1_to_7 :
    decodeTableWord 16 0x1ABC = some (.jp 0xABC#12) ∧ decodeTableWord 16 0x2DEF = some (.call 0xDEF#12) ∧
    decodeTableWord 16 0x3A42 = some (.seByte 10 0x42#8) ∧ decodeTableWord 16 0x4B43 = some (.sneByte 11 0x43#8) ∧
    decodeTableWord 16 0x5C70 = some (.seReg 12 7) ∧ decodeTableWord 16 0x5C7F = none ∧
    decodeTableWord 16 0x6D81 = some (.ldByte 13 0x81#8) ∧ decodeTableWord 16 0x7E18 = some (.addByte 14 0x18#8) := by decide

theorem test_decode_family_8 :
    decodeTableWord 16 0x8AB0 = some (.ldReg 10 11) ∧ decodeTableWord 16 0x8AB1 = some (.orReg 10 11) ∧
    decodeTableWord 16 0x8AB2 = some (.andReg 10 11) ∧ decodeTableWord 16 0x8AB3 = some (.xorReg 10 11) ∧
    decodeTableWord 16 0x8AB4 = some (.addReg 10 11) ∧ decodeTableWord 16 0x8AB5 = some (.subReg 10 11) ∧
    decodeTableWord 16 0x8AB6 = some (.shr 10 11) ∧ decodeTableWord 16 0x8AB7 = some (.subnReg 10 11) ∧
    decodeTableWord 16 0x8ABE = some (.shl 10 11) ∧ decodeTableWord 16 0x8AB8 = none ∧ decodeTableWord 16 0x8ABF = none := by decide

theorem test_decode_families_9_to_D :
    decodeTableWord 16 0x91F0 = some (.sneReg 1 15) ∧ decodeTableWord 16 0x91F1 = none ∧
    decodeTableWord 16 0xA7FE = some (.ldI 0x7FE#12) ∧ decodeTableWord 16 0xB7FD = some (.jpV0 0x7FD#12) ∧
    decodeTableWord 16 0xC93C = some (.rnd 9 0x3C#8) ∧ decodeTableWord 16 0xD125 = some (.drw 1 2 5#4) := by decide

theorem test_decode_families_E_and_F :
    decodeTableWord 16 0xE49E = some (.skp 4) ∧ decodeTableWord 16 0xE4A1 = some (.sknp 4) ∧ decodeTableWord 16 0xE49F = none ∧
    decodeTableWord 16 0xF407 = some (.ldVxDt 4) ∧ decodeTableWord 16 0xF40A = some (.ldVxK 4) ∧
    decodeTableWord 16 0xF415 = some (.ldDtVx 4) ∧ decodeTableWord 16 0xF418 = some (.ldStVx 4) ∧
    decodeTableWord 16 0xF41E = some (.addIVx 4) ∧ decodeTableWord 16 0xF429 = some (.ldFVx 4) ∧
    decodeTableWord 16 0xF433 = some (.ldBVx 4) ∧ decodeTableWord 16 0xF455 = some (.ldMemVx 4) ∧
    decodeTableWord 16 0xF465 = some (.ldVxMem 4) ∧ decodeTableWord 16 0xF466 = none := by decide

/-- The decoder takes two bytes, the high one first, and leaves the rest (R76, R100). -/
theorem test_decodeBytes_takes_two :
    decodeBytes [0x12#8, 0x34#8, 0x56#8] = .ok (.jp 0x234#12, [0x56#8]) ∧ decodeBytes [0x12#8] = .error .tooShort := by decide

/-- L-DROM-1, L-DROM-3, L-DROM-5. -/
theorem test_drom : drom[8] = 0x38#8 ∧ dromSelector drom[8] = some .selN ∧ decodeViaDrom 0x8AB5#16 = .ok (.subReg 10 11) ∧
    decodeViaDrom 0x00EE#16 = .ok .ret ∧ decodeViaDrom 0x9AB1#16 = .error (.illegal 0x9AB1#16) := by decide

/-- Encodings by hand, x, y and n all different. -/
theorem test_encode : encode (.drw 1 2 3#4) = 0xD123#16 ∧ encode (.subnReg 14 13) = 0x8ED7#16 ∧
    encode (.rnd 12 0x34#8) = 0xCC34#16 ∧ encode (.ldBVx 9) = 0xF933#16 ∧ encode (.jpV0 0x789#12) = 0xB789#16 := by decide

/-! ### Control transfer -/

/-- L-00EE-1. -/
theorem test_ret : (fun t : State => (t.pc, t.sp)) (after 0x00EE { State.reset with
    pc := 0x300#16, sp := 1, stack := Vector.replicate 16 0x0202#16 }) = (0x202#16, 0) := by decide
/-- L-00EE-2. -/
theorem test_ret_underflow : faultsAs 0x00EE State.reset ⟨.stackUnderflow, 0x200#16, some 0x00EE#16, none, none⟩ = true := by decide
/-- L-1nnn-1, L-1nnn-2. -/
theorem test_jp : (after 0x1ABC State.reset).pc = 0xABC#16 ∧ after 0x1200 State.reset = State.reset.withFetchWord 16 0x1200 := by
  decide
/-- L-2nnn-1, L-2nnn-2. -/
theorem test_call :
    (fun t : State => (t.pc, t.sp, t.stack[0])) (after 0x2400 (State.reset.setPc 0x250#16)) = (0x400#16, 1, 0x252#16) ∧
    (fun t : State => (t.pc, t.sp, t.stack[15])) (after 0x2400 { fullStack with sp := 15 }) = (0x400#16, 16, 0x202#16) := by decide
/-- L-2nnn-3. -/
theorem test_call_overflow : faultsAs 0x2400 fullStack ⟨.stackOverflow, 0x200#16, some 0x2400#16, none, none⟩ = true := by decide
/-- L-Bnnn-2 and its next step; L-Bnnn-3. -/
theorem test_jpV0 : (after 0xBFFF (withRegs [(0, 0xFF#8)])).pc = 0x10FE#16 ∧
    (singleStep (after 0xBFFF (withRegs [(0, 0xFF#8)]))).1 = .fault ⟨.memoryOutOfRange, 0x10FE#16, none, some 0x10FE, none⟩ ∧
    (after 0xB123 (withRegs [(1, 0x50#8)])).pc = 0x123#16 := by decide
/-- `JUMP_OFFSET_REG = VX`: B123 adds V1. -/
theorem test_jpV0_vx : (answered (execUnder alternative (.jpV0 0x123#12) (withRegs [(0, 0x07#8), (1, 0x50#8)]))).map (·.pc) =
    some 0x173#16 := by decide
/-- L-0nnn-1, L-0nnn-3. -/
theorem test_sys : faultsAs 0x0123 State.reset ⟨.decodeError, 0x200#16, some 0x0123#16, none, none⟩ = true ∧
    faultsAs 0x00E1 State.reset ⟨.decodeError, 0x200#16, some 0x00E1#16, none, none⟩ = true := by decide
/-- L-0nnn-4. -/
theorem test_sys_noOp : answered (execUnder alternative (.sys 0x123#12) State.reset) = some (State.reset.setPc 0x202#16) := by decide

/-! ### Skips -/

/-- L-3xkk-1, L-3xkk-2, and L-3xkk-3 with its next step. -/
theorem test_seByte : (after 0x3A42 (withRegs [(10, 0x42#8)])).pc = 0x204#16 ∧
    (after 0x3A42 (withRegs [(10, 0x41#8)])).pc = 0x202#16 ∧ (after 0x3000 (State.reset.setPc 0xFFC#16)).pc = 0x1000#16 ∧
    (singleStep (after 0x3000 (State.reset.setPc 0xFFC#16))).1 =
      .fault ⟨.memoryOutOfRange, 0x1000#16, none, some 0x1000, none⟩ := by decide
/-- L-4xkk-1, L-4xkk-2. -/
theorem test_sneByte : (after 0x4A42 (withRegs [(10, 0x42#8)])).pc = 0x202#16 ∧
    (after 0x4A42 (withRegs [(10, 0x41#8)])).pc = 0x204#16 := by decide
/-- L-5xy0-1, L-5xy0-2, L-5xy0-3. -/
theorem test_seReg : (after 0x5120 (withRegs [(1, 7#8), (2, 7#8)])).pc = 0x204#16 ∧
    (after 0x5120 (withRegs [(1, 7#8), (2, 8#8)])).pc = 0x202#16 ∧ (after 0x5110 State.reset).pc = 0x204#16 := by decide
/-- L-9xy0-1, L-9xy0-2. -/
theorem test_sneReg : (after 0x9120 (withRegs [(1, 7#8), (2, 7#8)])).pc = 0x202#16 ∧
    (after 0x9120 (withRegs [(1, 7#8), (2, 8#8)])).pc = 0x204#16 := by decide
/-- L-5xy0-4, L-9xy0-3, L-8xyN-1, L-ExKK-1. -/
theorem test_illegal_words :
    faultsAs 0x5121 State.reset ⟨.decodeError, 0x200#16, some 0x5121#16, none, none⟩ = true ∧
    faultsAs 0x912F State.reset ⟨.decodeError, 0x200#16, some 0x912F#16, none, none⟩ = true ∧
    faultsAs 0x8128 State.reset ⟨.decodeError, 0x200#16, some 0x8128#16, none, none⟩ = true ∧
    faultsAs 0xE09F State.reset ⟨.decodeError, 0x200#16, some 0xE09F#16, none, none⟩ = true := by decide

/-! ### Loads, arithmetic and logic -/

/-- Two registers after a step. -/
def regsOf (x y : RegIdx) (s : State) : Byte × Byte := (s.reg x, s.reg y)

/-- L-6xkk-1, L-6xkk-2. -/
theorem test_ldByte : (after 0x6AFF State.reset).reg 10 = 0xFF#8 ∧ (after 0x6F01 State.reset).reg 15 = 0x01#8 := by decide
/-- L-7xkk-1, L-7xkk-2. -/
theorem test_addByte : regsOf 10 15 (after 0x7A02 (withRegs [(10, 0xFF#8), (15, 0x55#8)])) = (0x01#8, 0x55#8) ∧
    (after 0x7F01 (withRegs [(15, 0xFF#8)])).reg 15 = 0x00#8 := by decide
/-- L-8xy0-1. -/
theorem test_ldReg : regsOf 1 2 (after 0x8120 (withRegs [(2, 0x99#8)])) = (0x99#8, 0x99#8) := by decide
/-- L-8xy1-1, L-8xy1-2. -/
theorem test_orReg : regsOf 1 15 (after 0x8121 (withRegs [(1, 0xF0#8), (2, 0x0F#8), (15, 0x77#8)])) = (0xFF#8, 0x77#8) ∧
    (answered (execUnder alternative (.orReg 1 2) (withRegs [(1, 0xF0#8), (2, 0x0F#8), (15, 0x77#8)]))).map (regsOf 1 15) =
      some (0xFF#8, 0x00#8) := by decide
/-- L-8xy2-1. -/
theorem test_andReg : (after 0x8122 (withRegs [(1, 0xF3#8), (2, 0x3F#8)])).reg 1 = 0x33#8 := by decide
/-- L-8xy3-1, L-8xy3-2. -/
theorem test_xorReg : (after 0x8123 (withRegs [(1, 0xFF#8), (2, 0x0F#8)])).reg 1 = 0xF0#8 ∧
    (after 0x8113 (withRegs [(1, 0xAB#8)])).reg 1 = 0x00#8 := by decide
/-- L-8xy4-1, L-8xy4-2. -/
theorem test_addReg : regsOf 1 15 (after 0x8124 (withRegs [(1, 0x7F#8), (2, 0x80#8)])) = (0xFF#8, 0#8) ∧
    regsOf 1 15 (after 0x8124 (withRegs [(1, 0x80#8), (2, 0x80#8)])) = (0x00#8, 1#8) := by decide
/-- L-8xy4-4, L-8xy4-5. -/
theorem test_addReg_vf : (after 0x8F14 (withRegs [(15, 0xFF#8), (1, 0x02#8)])).reg 15 = 1#8 ∧
    regsOf 1 15 (after 0x81F4 (withRegs [(1, 0x10#8), (15, 0x20#8)])) = (0x30#8, 0#8) := by decide
/-- L-8xy5-2, L-8xy5-3. -/
theorem test_subReg : regsOf 1 15 (after 0x8125 (withRegs [(1, 5#8), (2, 5#8)])) = (0#8, 1#8) ∧
    regsOf 1 15 (after 0x8125 (withRegs [(1, 3#8), (2, 5#8)])) = (0xFE#8, 0#8) := by decide
/-- L-8xy5-4. -/
theorem test_subReg_vf : (after 0x8F15 (withRegs [(15, 3#8), (1, 5#8)])).reg 15 = 0#8 := by decide
/-- L-8xy6-1, L-8xy6-4. -/
theorem test_shr : regsOf 1 15 (after 0x8126 (withRegs [(1, 5#8), (2, 0xFF#8)])) = (2#8, 1#8) ∧
    (after 0x8F06 (withRegs [(15, 3#8)])).reg 15 = 1#8 := by decide
/-- L-8xy6-2. -/
theorem test_shr_vy : (answered (execUnder alternative (.shr 1 2) (withRegs [(1, 5#8), (2, 0xFF#8)]))).map (regsOf 1 15) =
    some (0x7F#8, 1#8) := by decide
/-- L-8xy7-1, L-8xy7-3. -/
theorem test_subnReg : regsOf 1 15 (after 0x8127 (withRegs [(1, 3#8), (2, 5#8)])) = (2#8, 1#8) ∧
    regsOf 1 15 (after 0x8127 (withRegs [(1, 5#8), (2, 3#8)])) = (0xFE#8, 0#8) := by decide
/-- L-8xyE-1, L-8xyE-3. -/
theorem test_shl : regsOf 1 15 (after 0x810E (withRegs [(1, 0x81#8)])) = (2#8, 1#8) ∧
    regsOf 1 15 (after 0x810E (withRegs [(1, 0x7F#8)])) = (0xFE#8, 0#8) := by decide
/-- L-Cxkk-1. -/
theorem test_rnd : (answered (stepDraw Config.hardware 0xAB#8 (State.reset.withFetchWord 16 0xC30F))).map (·.reg 3) = some 0x0B#8 := by
  decide

/-! ### Index register and memory -/

/-- L-Annn-1. -/
theorem test_ldI : (after 0xAFFF State.reset).i = 0xFFF#16 := by decide
/-- L-Fx1E-2, L-Fx1E-3. -/
theorem test_addI : (fun t : State => (t.i, t.reg vf)) (after 0xF01E ((withRegs [(0, 1#8)]).setI 0xFFF#16)) = (0x1000#16, 0#8) ∧
    (after 0xF01E ((withRegs [(0, 1#8)]).setI 0xFFFF#16)).i = 0#16 := by decide
/-- L-Fx29-3, L-Fx29-4. -/
theorem test_ldF : (after 0xF029 (withRegs [(0, 0x0F#8)])).i = 0x4B#16 ∧
    faultsAs 0xF029 (withRegs [(0, 0x10#8)]) ⟨.operandOutOfRange, 0x200#16, some 0xF029#16, none, some 0x10#8⟩ = true := by decide
/-- L-Fx29-5. -/
theorem test_ldF_mask : (answered (execUnder alternative (.ldFVx 0) (withRegs [(0, 0x1A#8)]))).map (·.i) = some 0x32#16 := by decide
/-- L-Fx33-4, L-Fx33-6. -/
theorem test_ldB :
    (after 0xF033 ((withRegs [(0, 0x7B#8)]).setI 0xFFD#16)).mem.readList 0xFFD 3 = [1#8, 2#8, 3#8] ∧
    (after 0xF033 ((withRegs [(0, 0xFF#8)]).setI 0x200#16)).mem.readList 0x200 3 = [2#8, 5#8, 5#8] := by decide
/-- L-Fx33-5. -/
theorem test_ldB_fault : faultsAs 0xF033 ((withRegs [(0, 0x7B#8)]).setI 0xFFE#16)
    ⟨.memoryOutOfRange, 0x200#16, some 0xF033#16, some 0x1000, none⟩ = true := by decide
/-- L-Fx55-1, L-Fx55-5. -/
theorem test_ldMem :
    (fun t : State => (t.mem.readList 0x3FF 5, t.i)) (after 0xF255 ((withRegs [(0, 1#8), (1, 2#8), (2, 3#8), (3, 4#8)]).setI 0x400#16)) =
      ([0#8, 1#8, 2#8, 3#8, 0#8], 0x400#16) ∧
    faultsAs 0xF055 (State.reset.setI 0x1005#16) ⟨.memoryOutOfRange, 0x200#16, some 0xF055#16, some 0x1005, none⟩ = true := by decide
/-- L-Fx55-2; and Fx65 under the same policy. -/
theorem test_mem_increment :
    (answered (execUnder alternative (.ldMemVx 2) (State.reset.setI 0x400#16))).map (·.i) = some 0x403#16 ∧
    (answered (execUnder alternative (.ldVxMem 2) (State.reset.setI 0x400#16))).map (·.i) = some 0x403#16 := by decide
/-- L-Fx65-4, L-Fx65-3. -/
theorem test_ldVxMem : (after 0xF065 State.reset).reg 0 = 0xF0#8 ∧
    faultsAs 0xF065 (State.reset.setI 0x1000#16) ⟨.memoryOutOfRange, 0x200#16, some 0xF065#16, some 0x1000, none⟩ = true := by decide
/-- The canonical form: writing back what an unlisted address reads as removes the entry, in the font and above it. -/
theorem test_memory_canonical : Memory.write (Memory.write [] 0 0x55#8) 0 0xF0#8 = [] ∧
    Memory.write (Memory.write [] 0x300 0x55#8) 0x300 0#8 = [] ∧
    Memory.write (Memory.write [] 0x300 1#8) 0x2FF 2#8 = [(0x2FF, 2#8), (0x300, 1#8)] := by decide

/-! ### Display -/

/-- L-CLS-1. -/
theorem test_cls : lit (after 0x00E0 (State.reset.setDisp ((clearDisplay.flip 0 0).flip 63 31))) = [] := by decide
/-- L-DRW-5, L-DRW-7. -/
theorem test_drw :
    (fun t : State => (lit t, t.reg vf)) (after 0xD011
      { withRegs [(0, 0x45#8), (1, 0x25#8)] with i := 0x300#16, mem := [(0x300, 0x81#8)] }) = ([(5, 5), (12, 5)], 0#8) ∧
    (fun t : State => (lit t, t.reg vf)) (after 0xDFF1 { withRegs [(15, 3#8)] with i := 0x300#16, mem := [(0x300, 0xFF#8)] }) =
      ([(3, 3), (4, 3), (5, 3), (6, 3), (7, 3), (8, 3), (9, 3), (10, 3)], 0#8) := by decide
/-- L-DRW-2, then L-DRW-1 from the state L-DRW-2 leaves (the second of two equal draws over a pixel that was set: VF = 0, log entry 6),
L-DRW-9, L-DRW-11. -/
theorem test_drw_collision_empty_and_fault :
    (fun t : State => (lit t, t.reg vf)) (after 0xD011
      { State.reset with i := 0x300#16, mem := [(0x300, 0x80#8)], disp := clearDisplay.flip 0 0 }) = ([], 1#8) ∧
    (fun t : State => (lit t, t.reg vf)) (after 0xD011 { withRegs [(15, 1#8)] with i := 0x300#16, mem := [(0x300, 0x80#8)] }) =
      ([(0, 0)], 0#8) ∧
    (after 0xD010 ((withRegs [(15, 1#8)]).setI 0x5000#16)).reg vf = 0#8 ∧
    faultsAs 0xD012 (State.reset.setI 0xFFF#16) ⟨.memoryOutOfRange, 0x200#16, some 0xD012#16, some 0x1000, none⟩ = true := by decide

/-! ### Keypad and timers -/

/-- L-Fx07-1, L-Fx15-1, L-Fx18-1. -/
theorem test_timers : (after 0xF307 (State.reset.setDt 0x2A#8)).reg 3 = 0x2A#8 ∧
    (after 0xF015 (withRegs [(0, 0x3C#8)])).dt = 0x3C#8 ∧ (after 0xF118 (withRegs [(1, 2#8)])).st = 2#8 ∧
    soundActive (after 0xF118 (withRegs [(1, 2#8)])) = true := by decide
/-- L-Tick-1, L-Tick-2. -/
theorem test_tick : tick { State.reset with dt := 2#8, st := 1#8 } = { State.reset with dt := 1#8, st := 0#8 } ∧
    tick State.reset = State.reset := by decide
/-- L-Ex9E-1, L-Ex9E-2, L-Ex9E-3. -/
theorem test_skp : (after 0xE09E ((withRegs [(0, 5#8)]).setKey 5 true)).pc = 0x204#16 ∧
    (after 0xE09E (withRegs [(0, 5#8)])).pc = 0x202#16 ∧
    faultsAs 0xE09E (withRegs [(0, 0x10#8)]) ⟨.operandOutOfRange, 0x200#16, some 0xE09E#16, none, some 0x10#8⟩ = true := by decide
/-- L-ExA1-1, L-ExA1-2. -/
theorem test_sknp : (after 0xE0A1 ((withRegs [(0, 5#8)]).setKey 5 true)).pc = 0x202#16 ∧
    (after 0xE0A1 (withRegs [(0, 5#8)])).pc = 0x204#16 := by decide
/-- L-Fx0A-1, L-Fx0A-2, L-Fx0A-4. -/
theorem test_key_wait : after 0xF30A (State.reset.setPc 0x210#16) = awaiting ∧ singleStep awaiting = (.waiting, awaiting) ∧
    keyDown 7 (awaiting.setKey 7 true) = awaiting.setKey 7 true := by decide
/-- L-Fx0A-6: the first of two key-downs ends the wait. -/
theorem test_key_wait_ends :
    (fun t : State => (t.pc, t.reg vf, t.run, t.key[2], t.key[9]))
      (runEvents [.keyDown 2, .keyDown 9] { State.reset with pc := 0x300#16, run := .awaitingKey 15 }) =
      (0x302#16, 2#8, .running, true, true) := by decide

/-! ### The step cycle, faults and load -/

/-- L-Fetch-1, L-Fetch-2, L-Fetch-4. -/
theorem test_fetch : (after 0x00E0 (State.reset.setPc 0xFFE#16)).pc = 0x1000#16 ∧
    (singleStep (State.reset.setPc 0xFFF#16)).1 = .fault ⟨.memoryOutOfRange, 0xFFF#16, none, some 0x1000, none⟩ ∧
    (fun t : State => (t.reg 10, t.pc)) (after 0x6A07 (State.reset.setPc 0x201#16)) = (7#8, 0x203#16) := by decide
/-- L-Prio-2: the recorded address is the lowest one out of range, not I. -/
theorem test_fault_address : faultsAs 0xFF55 (State.reset.setI 0xFF8#16)
    ⟨.memoryOutOfRange, 0x200#16, some 0xFF55#16, some 0x1000, none⟩ = true := by decide
/-- L-Fault-1, L-Fault-2, L-Fault-3. -/
theorem test_faulted : (singleStep faulted).2 = faulted ∧ (load [0x60#8, 0x05#8] faulted).2.run = .running ∧
    keyDown 1 faulted = faulted.setKey 1 true := by decide
/-- L-Load-1, L-Load-5. -/
theorem test_load : load [0x60#8, 0x05#8] { State.reset.setKey 3 true with dt := 9#8, st := 4#8, pc := 0x300#16 } =
    (.ok, { State.reset.setKey 3 true with mem := [(0x200, 0x60#8), (0x201, 0x05#8)] }) := by decide
/-- L-Load-6: the font's two ends. -/
theorem test_font : State.reset.mem.readList 0 5 = [0xF0#8, 0x90#8, 0x90#8, 0x90#8, 0xF0#8] ∧
    State.reset.mem.readList 0x4B 6 = [0xF0#8, 0x80#8, 0xF0#8, 0x80#8, 0x80#8, 0#8] := by decide
/-- `RESET_REGS = Arbitrary`: the drawn values stand after reset (R33, R35). -/
theorem test_reset_arbitrary : (State.resetUnder alternative).reg 7 = 0xA5#8 ∧ (State.resetUnder alternative).i = 0x1234#16 := by decide

/-! ### Witnesses: the hypotheses of each statement met together -/

theorem test_witness_DecodeOfEncodeIsTheInstruction :
    (Instr.sys 0x0E1#12).wellFormed = true ∧ (Instr.drw 15 14 3#4).wellFormed = true := by decide

theorem test_witness_EncodeOfDecodeIsTheWord : decode 0xF965#16 = .ok (.ldVxMem 9) := by decide

theorem test_witness_DecodeFollowsTheOpcodeTable : decode 0x8127#16 = .ok (.subnReg 1 2) ∧
    (tableRow (.sys 0x123#12)).has 0x00E0#16 = true ∧ (tableRow (.shl 0 0)).has 0x8FFE#16 = true := by decide

theorem test_witness_IllegalWordsAreTheListedShapes : illegalWord .noOp 0xFF64#16 = true ∧ illegalWord .noOp 0x0123#16 = false ∧
    illegalWord .decodeError 0x0123#16 = true ∧ illegalWord .decodeError 0x00EE#16 = false := by decide

theorem test_witness_FetchIsBigEndianAndChecked : 0xFFE + 1 ≤ 0xFFF ∧
    (State.reset.setPc 0xFFF#16).run = .running ∧ 0xFFF ≤ (State.reset.setPc 0xFFF#16).pc.toNat ∧
    (State.reset.setPc 0x10FE#16).run = .running ∧ 0xFFF ≤ (State.reset.setPc 0x10FE#16).pc.toNat := by decide

theorem test_witness_StepRunsTheDecodedInstruction :
    let s := (State.reset.setPc 0xFFE#16).withFetchWord 16 0x8127
    s.run = .running ∧ s.pc.toNat ≤ 0xFFE ∧ decode (s.mem.read s.pc.toNat ++ s.mem.read (s.pc.toNat + 1)) = .ok (.subnReg 1 2) := by
  decide

theorem test_witness_IllegalWordFaults :
    let s := State.reset.withFetchWord 16 0x5121
    (s.run = .running ∧ s.pc.toNat ≤ 0xFFE ∧ s.mem.read s.pc.toNat ++ s.mem.read (s.pc.toNat + 1) = 0x5121#16 ∧
      illegalWord Config.hardware.sysPolicy 0x5121#16 = true) ∧ illegalWord Config.hardware.sysPolicy 0x0000#16 = true := by decide

theorem test_witness_HeldAndFaultedStepsChangeNothing : awaiting.run = .awaitingKey 3 ∧
    faulted.run = .faulted ⟨.decodeError, 0x200#16, some 0x0000#16, none, none⟩ := by decide

/-- One faulting step for each kind that a step can raise, from running states. -/
theorem test_witness_FaultsArePrecise :
    ((singleStep State.reset).1 = .fault ⟨.decodeError, 0x200#16, some 0x0000#16, none, none⟩ ∧ State.reset.run = .running) ∧
    (singleStep (State.reset.setPc 0xFFF#16)).1 = .fault ⟨.memoryOutOfRange, 0xFFF#16, none, some 0x1000, none⟩ ∧
    (singleStep ((State.reset.setI 0xFFFF#16).withFetchWord 16 0xFF65)).1 =
      .fault ⟨.memoryOutOfRange, 0x200#16, some 0xFF65#16, some 0xFFFF, none⟩ ∧
    (singleStep (State.reset.withFetchWord 16 0x00EE)).1 = .fault ⟨.stackUnderflow, 0x200#16, some 0x00EE#16, none, none⟩ ∧
    (singleStep (fullStack.withFetchWord 16 0x2400)).1 = .fault ⟨.stackOverflow, 0x200#16, some 0x2400#16, none, none⟩ ∧
    (singleStep ((withRegs [(0, 0x10#8)]).withFetchWord 16 0xE09E)).1 =
      .fault ⟨.operandOutOfRange, 0x200#16, some 0xE09E#16, none, some 0x10#8⟩ := by decide

theorem test_witness_InstructionsRaiseTheListedFaults : State.reset.run = .running ∧
    (∃ t, exec .ret State.reset = .next t ∧ t.run = .faulted ⟨.stackUnderflow, 0x200#16, some 0x00EE#16, none, none⟩) ∧
    (Instr.drw 0 1 2#4).faultKind = some .memoryOutOfRange :=
  ⟨by decide, ⟨_, rfl, by decide⟩, by decide⟩

/-- A state with a call on the stack and a listed byte satisfies the invariant, and its step answers a next state. -/
theorem test_witness_StepKeepsInv : { fullStack with sp := 1, mem := [(0x200, 0x12#8)] }.Inv ∧ awaiting.Inv ∧
    ∃ t, step awaiting = .next t :=
  ⟨⟨by decide, by decide, by decide, trivial⟩,
    ⟨by decide, by decide, by decide, show awaiting.wordAtPc = some 0xF30A#16 by decide⟩, _, rfl⟩

theorem test_witness_EveryInterleavingKeepsInv :
    faulted.Inv :=
  ⟨by decide, by decide, by decide, by decide, by decide, ⟨_, rfl, by decide⟩, by decide, by decide⟩

theorem test_witness_OnlyStoresChangeMemory : State.reset.mem.wf = true ∧
    (∃ t, exec (.ldMemVx 3) (State.reset.setI 0x300#16) = .next t ∧ t.run = .running) ∧
    (Instr.ldMemVx 3).storesTo (State.reset.setI 0x300#16) 0x304 = false ∧
    (Instr.ldMemVx 3).storesTo (State.reset.setI 0x300#16) 0x2FF = false :=
  ⟨by decide, ⟨_, rfl, by decide⟩, by decide, by decide⟩

theorem test_witness_RegistersChangeOnlyAsNamed :
    (∃ t, exec (.addReg 1 2) State.reset = .next t) ∧ (Instr.addReg 1 2).hasDest 2 = false ∧ (2 : RegIdx) ≠ vf ∧
    (∃ t, exec (.ldReg 1 2) State.reset = .next t) ∧ (Instr.ldReg 1 2).hasDest vf = false ∧ (Instr.ldReg 1 2).writesFlag = false :=
  ⟨⟨_, rfl⟩, by decide, by decide, ⟨_, rfl⟩, by decide, by decide⟩

theorem test_witness_SpecialStateChangesOnlyAsNamed : (∃ t, exec (.ldMemVx 3) State.reset = .next t) ∧
    (Instr.ldMemVx 3).writesI = false ∧ (Instr.ldMemVx 3).writesStack = false ∧ (Instr.ldMemVx 3).writesDt = false ∧
    (Instr.ldMemVx 3).writesSt = false ∧ (Instr.ldMemVx 3).writesDisplay = false :=
  ⟨⟨_, rfl⟩, by decide, by decide, by decide, by decide, by decide⟩

theorem test_witness_StoreIsSeenByTheNextFetch :
    let s := { State.reset with pc := 0xFFC#16, i := 0xFFE#16 }
    s.mem.wf = true ∧ 1 ≤ (1 : RegIdx).val ∧ s.i = s.pc + 2#16 ∧ s.i.toNat + (1 : RegIdx).val ≤ 0xFFF := by decide

theorem test_witness_RetPopsOrUnderflows : 0 < fullStack.sp.val ∧ 0 < { fullStack with sp := 1 }.sp.val ∧ State.reset.sp.val = 0 := by
  decide

theorem test_witness_CallPushesOrOverflows : { fullStack with sp := 15 }.sp.val < 16 ∧ fullStack.sp.val = 16 := by decide

/-- W8's first two instructions, with the call at the last depth that leaves room. -/
theorem test_witness_CallThenRetAdvancesByTwo :
    let s := { fullStack with sp := 15, mem := [(0x200, 0x22#8), (0x201, 0x20#8), (0x221, 0xEE#8)] }
    s.run = .running ∧ s.sp.val < 16 ∧ s.wordAtPc = some (formatNNN 0x2#4 0x220#12) ∧ fetch16 s.mem 0x220 = .ok 0x00EE#16 := by decide

theorem test_witness_JpV0AddsTheOffset : Config.hardware.jumpOffsetReg = .v0 ∧ alternative.jumpOffsetReg = .vx ∧
    (15 : RegIdx).val = (0xFFF#12).toNat / 256 := by decide

theorem test_witness_RegisterSkips : 15#4 ≠ 0#4 := by decide

theorem test_witness_RndMasksTheDraw : ∀ x kk, Instr.cls ≠ .rnd x kk := fun _ _ h => by cases h

theorem test_witness_SysFaultsOrOnlyAdvances : 0x0E1#12 ≠ 0x0E0#12 ∧ 0x0E1#12 ≠ 0x0EE#12 ∧ alternative.sysPolicy = .noOp := by decide

theorem test_witness_KeySkips : ((withRegs [(0, 0xF#8)]).reg 0).toNat = (15 : KeyIdx).val ∧ 0xF < ((withRegs [(0, 0x10#8)]).reg 0).toNat ∧
    alternative.nibblePolicy = .mask ∧ (10 : KeyIdx).val = ((withRegs [(0, 0x1A#8)]).reg 0).toNat % 16 := by decide

theorem test_witness_LogicOperations : alternative.logicVfReset = true := by decide

/-- For AddRegAddsWithCarry, SubRegSubtractsWithNotBorrow, SubnRegSubtractsReversed, ShrShiftsRightByOne and ShlShiftsLeftByOne. -/
theorem test_witness_flag_instructions : (1 : RegIdx) ≠ vf ∧ Config.hardware.shiftSource = .vx ∧ alternative.shiftSource = .vy := by
  decide

theorem test_witness_LdFPointsAtTheGlyph : ((withRegs [(0, 0xF#8)]).reg 0).toNat ≤ 0xF ∧
    0xF < ((withRegs [(0, 0x10#8)]).reg 0).toNat ∧ alternative.nibblePolicy = .mask := by decide

theorem test_witness_LdBStoresTheDigits : State.reset.mem.wf = true ∧ (State.reset.setI 0xFFD#16).i.toNat + 2 ≤ 0xFFF ∧
    0xFFF < (State.reset.setI 0xFFE#16).i.toNat + 2 := by decide

theorem test_witness_LdMemDumpsRegisters : State.reset.mem.wf = true ∧
    (State.reset.setI 0xFF0#16).i.toNat + (15 : RegIdx).val ≤ 0xFFF ∧ 0xFFF < (State.reset.setI 0xFF1#16).i.toNat + (15 : RegIdx).val ∧
    ∃ t, exec (.ldMemVx 15) (State.reset.setI 0xFF0#16) = .next t :=
  ⟨by decide, by decide, by decide, _, rfl⟩

theorem test_witness_LdVxMemLoadsRegisters : (State.reset.setI 0xFFF#16).i.toNat + (0 : RegIdx).val ≤ 0xFFF ∧
    0xFFF < (State.reset.setI 0x1000#16).i.toNat + (0 : RegIdx).val ∧
    ∃ t, exec (.ldVxMem 0) (State.reset.setI 0xFFF#16) = .next t :=
  ⟨by decide, by decide, _, rfl⟩

theorem test_witness_DumpThenLoadRestoresRegisters : State.reset.mem.wf = true ∧
    (State.reset.setI 0xFFC#16).i.toNat + (3 : RegIdx).val ≤ 0xFFF ∧ ∃ t, exec (.ldMemVx 3) (State.reset.setI 0xFFC#16) = .next t :=
  ⟨by decide, by decide, _, rfl⟩

theorem test_witness_DrwInvertsTheCoveredPixels :
    (0#4 = 0#4 ∨ (State.reset.setI 0x5000#16).i.toNat + (0#4).toNat - 1 ≤ 0xFFF) ∧
    (15#4 = 0#4 ∨ (State.reset.setI 0xFF1#16).i.toNat + (15#4).toNat - 1 ≤ 0xFFF) ∧
    15#4 ≠ 0#4 ∧ 0xFFF < (State.reset.setI 0xFF2#16).i.toNat + (15#4).toNat - 1 := by decide

/-- A glyph of the font drawn twice. -/
theorem test_witness_DrawingTwiceRestoresTheDisplay : (0 : RegIdx) ≠ vf ∧ (1 : RegIdx) ≠ vf ∧ State.reset.i.toNat + (5#4).toNat - 1 ≤ 0xFFF ∧
    ∃ t u, exec (.drw 0 1 5#4) State.reset = .next t ∧ exec (.drw 0 1 5#4) t = .next u :=
  ⟨by decide, by decide, by decide, _, _, rfl, rfl⟩

theorem test_witness_KeyWaitStartsAndCompletes : awaiting.run = .awaitingKey 3 ∧ awaiting.key[(7 : KeyIdx).val] = false := by decide

theorem test_witness_OnlyAKeyPressOrALoadEndsTheWait : (awaiting.setKey 7 true).run = .awaitingKey 3 ∧
    (awaiting.setKey 7 true).key[(7 : KeyIdx).val] = true ∧ (List.replicate 3584 0x12#8).length ≤ 3584 :=
  ⟨by decide, by decide, List.length_replicate.le⟩

theorem test_witness_KeyEventsWriteTheLatch :
    (∀ x, State.reset.run = .awaitingKey x → State.reset.key[(7 : KeyIdx).val] = true) ∧
    (∀ x, (awaiting.setKey 7 true).run = .awaitingKey x → (awaiting.setKey 7 true).key[(7 : KeyIdx).val] = true) ∧
    awaiting.run = .awaitingKey 3 ∧ awaiting.key[(7 : KeyIdx).val] = false := by decide

theorem test_witness_Readbacks : isSet 63 31 State.reset = .ok false ∧ (64 ≤ 64 ∨ 32 ≤ 0) ∧ (64 ≤ 0 ∨ 32 ≤ 32) := by decide

theorem test_witness_LoadResetsAndCopiesOrRefuses : (List.replicate 3584 0x12#8).length ≤ 3584 ∧
    3583 < (List.replicate 3584 0x12#8).length ∧ 3584 < (List.replicate 3585 0x12#8).length :=
  ⟨List.length_replicate.le, List.length_replicate.ge, List.length_replicate.ge⟩

theorem test_witness_OnlyALoadClearsAFault : faulted.run = .faulted ⟨.decodeError, 0x200#16, some 0x0000#16, none, none⟩ ∧
    (∀ rom, Event.load rom ∈ [.cpuStep, .load (List.replicate 3585 0#8)] → 3584 < rom.length) ∧
    (List.replicate 3584 0x12#8).length ≤ 3584 := by
  refine ⟨by decide, fun rom h => ?_, List.length_replicate.le⟩
  obtain rfl : rom = List.replicate 3585 0#8 := by
    simpa only [List.mem_cons, Event.load.injEq, reduceCtorEq, List.not_mem_nil, false_or, or_false] using h
  exact List.length_replicate.ge

end Sys2Proof.Tests
end

/-! ## The word an instruction was decoded from (30_encoding.md R106) -/

namespace Sys2Proof

open Sys2Proof.Machine

theorem formatNNN_of_fields {w : Word} {op : Nibble} (hop : (opOf w).toNat = op.toNat) :
    formatNNN op (nnnOf w) = w := by
  apply word_eq
  rw [toNat_formatNNN, ← hop, toNat_opOf, toNat_nnnOf]
  omega

theorem formatXKK_of_fields {w : Word} {op : Nibble} {kk : Byte} (hop : (opOf w).toNat = op.toNat)
    (hkk : (kkOf w).toNat = kk.toNat) : formatXKK op (xOf w) kk = w := by
  apply word_eq
  rw [toNat_formatXKK, ← hop, ← hkk, toNat_opOf, val_xOf, toNat_kkOf]
  omega

theorem formatXYN_of_fields {w : Word} {op n : Nibble} (hop : (opOf w).toNat = op.toNat)
    (hn : (nOf w).toNat = n.toNat) : formatXYN op (xOf w) (yOf w) n = w := by
  apply word_eq
  rw [toNat_formatXYN, ← hop, ← hn, toNat_opOf, val_xOf, val_yOf, toNat_nOf]
  omega

theorem encode_of_decode0 {w : Word} {i : Instr} (hop : (opOf w).toNat = 0x0) (h : decode0 w = .ok i) : encode i = w := by
  unfold decode0 at h
  split at h
  · cases h
    exact Eq.symm ‹w = 0x00E0#16›
  · split at h <;> cases h
    · exact Eq.symm ‹w = 0x00EE#16›
    · exact formatNNN_of_fields hop

theorem encode_of_decode8 {w : Word} {i : Instr} (hop : (opOf w).toNat = 0x8) (h : decode8 w = .ok i) : encode i = w := by
  unfold decode8 at h
  split at h <;> cases h <;> exact formatXYN_of_fields hop ‹_›

theorem encode_of_decodeE {w : Word} {i : Instr} (hop : (opOf w).toNat = 0xE) (h : decodeE w = .ok i) : encode i = w := by
  unfold decodeE at h
  split at h <;> cases h <;> exact formatXKK_of_fields hop ‹_›

theorem encode_of_decodeF {w : Word} {i : Instr} (hop : (opOf w).toNat = 0xF) (h : decodeF w = .ok i) : encode i = w := by
  unfold decodeF at h
  split at h <;> cases h <;> exact formatXKK_of_fields hop ‹_›

/-- A word that decodes is its instruction's own: every bit is an opcode bit or an operand bit (R106). -/
theorem encode_of_decode {w : Word} {i : Instr} (h : decode w = .ok i) : encode i = w := by
  unfold decode at h
  split at h
  -- The split's n-th case is family n - 1, the last one no family.
  case h_1 hop => exact encode_of_decode0 hop h
  case h_2 hop | h_3 hop | h_11 hop | h_12 hop =>
    cases h
    exact formatNNN_of_fields hop
  case h_4 hop | h_5 hop | h_7 hop | h_8 hop | h_13 hop =>
    cases h
    exact formatXKK_of_fields hop rfl
  case h_6 hop | h_10 hop =>
    split at h <;> cases h
    exact formatXYN_of_fields hop (congrArg BitVec.toNat ‹nOf w = 0#4›)
  case h_9 hop => exact encode_of_decode8 hop h
  case h_14 hop =>
    cases h
    exact formatXYN_of_fields hop rfl
  case h_15 hop => exact encode_of_decodeE hop h
  case h_16 hop => exact encode_of_decodeF hop h
  case h_17 => cases h

end Sys2Proof

/-! ## The invariant, operation by operation

`State.Inv` reads five fields. An operation that leaves them alone keeps it (`Inv.congr`); a fetch that succeeds puts the state among
those that are `Ready`, for which each write of memory, PC, the stack or Run has its own rule. -/

namespace Sys2Proof.Machine

/-- The two states agree on every field that the invariant reads. -/
structure State.SameControl (s t : State) : Prop where
  mem   : t.mem = s.mem
  pc    : t.pc = s.pc
  stack : t.stack = s.stack
  sp    : t.sp = s.sp
  run   : t.run = s.run

/-- The invariant of a running core whose fetch succeeds: where `step` executes an instruction. -/
structure State.Ready (s : State) : Prop where
  inv     : s.Inv
  running : s.run = .running
  pc_le   : s.pc.toNat ≤ 0xFFE

/-! ### The word at PC and what rests on it -/

theorem State.wordAtPc_eq_some {s : State} {w : Word} (h : fetch16 s.mem s.pc.toNat = .ok w) : s.wordAtPc = some w := by
  rw [State.wordAtPc, h]

theorem State.wordAtPc_eq_none {s : State} (h : 0xFFF ≤ s.pc.toNat) : s.wordAtPc = none := by
  rcases fetch16_cases s.mem s.pc.toNat with ⟨hpc, _⟩ | ⟨_, hf⟩
  · omega
  · rw [State.wordAtPc, hf]

/-- A word stands at PC only where both of its bytes lie in memory (R76). -/
theorem State.pc_le_of_wordAtPc {s : State} {w : Word} (h : s.wordAtPc = some w) : s.pc.toNat ≤ 0xFFE := by
  by_contra hpc
  rw [State.wordAtPc_eq_none (by omega)] at h
  cases h

theorem State.wordAtPc_congr {s t : State} (hmem : t.mem = s.mem) (hpc : t.pc = s.pc) : t.wordAtPc = s.wordAtPc := by
  rw [State.wordAtPc, State.wordAtPc, hmem, hpc]

theorem FaultRecord.Fits.congr {f : FaultRecord} {s t : State} (h : f.Fits s) (hmem : t.mem = s.mem) (hpc : t.pc = s.pc)
    (hsp : t.sp = s.sp) : f.Fits t := by
  rw [FaultRecord.Fits, State.wordAtPc_congr hmem hpc, hpc, hsp]
  exact h

theorem State.RunFits.congr {s t : State} (h : s.RunFits) (hc : s.SameControl t) : t.RunFits := by
  unfold State.RunFits at h ⊢
  rw [hc.run]
  cases hr : s.run with
  | running => trivial
  | awaitingKey x =>
    rw [hr] at h
    exact (State.wordAtPc_congr hc.mem hc.pc).trans h
  | faulted f =>
    rw [hr] at h
    exact FaultRecord.Fits.congr h hc.mem hc.pc hc.sp

theorem State.runFits_of_running {s : State} (h : s.run = .running) : s.RunFits := by
  rw [State.RunFits, h]
  trivial

/-! ### What any state may undergo -/

namespace State.Inv

variable {s t : State}

theorem congr (h : s.Inv) (hc : s.SameControl t) : t.Inv where
  mem_wf := hc.mem ▸ h.mem_wf
  pc_le := hc.pc ▸ h.pc_le
  ret_le := by rw [hc.sp, hc.stack]; exact h.ret_le
  run_fits := h.run_fits.congr hc

/-- A trap whose record fits may be taken (R303). -/
theorem takeFault (h : s.Inv) {c : Trap} {w : Option Word} (hf : (c.record s.pc w).Fits s) : (s.takeFault c w).Inv where
  mem_wf := h.mem_wf
  pc_le := h.pc_le
  ret_le := h.ret_le
  run_fits := hf.congr rfl rfl rfl

/-- A core that stands at an instruction may be made to run. -/
theorem ready_setRun (h : s.Inv) (hpc : s.pc.toNat ≤ 0xFFE) : (s.setRun .running).Ready where
  inv := ⟨h.mem_wf, h.pc_le, h.ret_le, trivial⟩
  running := rfl
  pc_le := hpc

end State.Inv

/-! ### What a ready state may undergo -/

namespace State.Ready

variable {s t : State}

theorem congr (h : s.Ready) (hc : s.SameControl t) : t.Ready where
  inv := h.inv.congr hc
  running := hc.run.trans h.running
  pc_le := hc.pc ▸ h.pc_le

theorem setMem (h : s.Ready) {m : Memory} (hm : m.wf = true) : (s.setMem m).Ready where
  inv := ⟨hm, h.inv.pc_le, h.inv.ret_le, runFits_of_running h.running⟩
  running := h.running
  pc_le := h.pc_le

theorem setPc (h : s.Ready) {target : Word} (ht : target.toNat ≤ 0x10FE) : (s.setPc target).Inv :=
  ⟨h.inv.mem_wf, ht, h.inv.ret_le, runFits_of_running h.running⟩

/-- PC + 2 of a fetched instruction stays at most 0x1000 (R38). -/
theorem toNat_pc_add_two (h : s.Ready) : (s.pc + 2#16).toNat ≤ 0x1000 := by
  have := h.pc_le
  bv_omega

theorem advance (h : s.Ready) : s.advance.Inv := h.setPc (h.toNat_pc_add_two.trans (by decide))

/-- PC may advance past an instruction that wrote nothing the invariant reads. -/
theorem advance_of_sameControl (h : s.Ready) (hc : s.SameControl t) : t.advance.Inv := (h.congr hc).advance

theorem skipIf (h : s.Ready) (c : Bool) : (s.skipIf c).Inv := by
  have := h.pc_le
  refine h.setPc ?_
  cases c
  · exact h.toNat_pc_add_two.trans (by decide)
  · show (s.pc + 4#16).toNat ≤ 0x10FE
    bv_omega

/-- A wait may start where the word at PC is the Fx0A that names its register (R275). -/
theorem setRun_awaitingKey (h : s.Ready) {x : RegIdx} (hw : s.wordAtPc = some (encode (.ldVxK x))) :
    (s.setRun (.awaitingKey x)).Inv :=
  ⟨h.inv.mem_wf, h.inv.pc_le, h.inv.ret_le, hw⟩

/-- A return address at most 0x1000 may be pushed: the entries below the old depth stay, and it is the new one. -/
theorem push (h : s.Ready) {ret : Word} (hret : ret.toNat ≤ 0x1000) (hp : s.push ret = some t) : t.Ready := by
  rcases s.push_cases ret with ⟨hsp, hp'⟩ | ⟨_, hp'⟩ <;> rw [hp'] at hp <;> cases hp
  refine ⟨⟨h.inv.mem_wf, h.inv.pc_le, fun j hj => ?_, runFits_of_running h.running⟩, h.running, h.pc_le⟩
  show (s.stack.set s.sp.val ret)[j.val].toNat ≤ 0x1000
  rw [Vector.getElem_set]
  split
  · exact hret
  · exact h.inv.ret_le j (by simp only at hj; omega)

/-- A pop answers a return address, and the entries below it stay. -/
theorem pop (h : s.Ready) {target : Word} (hp : s.pop = some (target, t)) : target.toNat ≤ 0x1000 ∧ t.Ready := by
  rcases s.pop_cases with ⟨_, hp'⟩ | ⟨hsp, hp'⟩ <;> rw [hp'] at hp <;> cases hp
  refine ⟨h.inv.ret_le ⟨s.sp.val - 1, by omega⟩ (by simp only; omega),
    ⟨h.inv.mem_wf, h.inv.pc_le, fun j hj => ?_, runFits_of_running h.running⟩, h.running, h.pc_le⟩
  exact h.inv.ret_le j (by simp only at hj; omega)

end State.Ready

/-! ## An executed instruction keeps the invariant -/

theorem not_unfaulted_of_raise {c : Trap} {i : Instr} {s t : State} (h : raise c i s = .next t) : ¬ t.Unfaulted := by
  cases h
  exact fun hu => hu _ rfl

/-- The sum of Bnnn stays at most 0xFFF + 0xFF (R38, R143). -/
theorem toNat_jump_sum_le (nnn : Addr12) (b : Byte) : (BitVec.ofNat 16 (nnn.toNat + b.toNat)).toNat ≤ 0x10FE := by
  have := nnn.isLt
  have := b.isLt
  rw [BitVec.toNat_ofNat]
  omega

theorem toNat_zextAddr_le (nnn : Addr12) : (zextAddr nnn).toNat ≤ 0x10FE := by
  have := nnn.isLt
  rw [toNat_zextAddr]
  omega

/-- An instruction that takes no fault keeps the invariant. -/
theorem State.Ready.exec_of_unfaulted {i : Instr} {s t : State} (hs : s.Ready) (hw : s.wordAtPc = some (encode i))
    (h : exec i s = .next t) (hu : t.Unfaulted) : t.Inv := by
  cases i <;> simp only [exec] at h
  -- The invariant reads none of what these write, and PC advances.
  case cls | ldByte | addByte | ldReg | orReg | andReg | xorReg | addReg | subReg | shr | subnReg | shl | ldI | rnd | ldVxDt
      | ldDtVx | ldStVx | addIVx =>
    cases h
    exact hs.advance_of_sameControl ⟨rfl, rfl, rfl, rfl, rfl⟩
  case seByte | sneByte | seReg | sneReg =>
    cases h
    exact hs.skipIf _
  case jp nnn =>
    cases h
    exact hs.setPc (toNat_zextAddr_le nnn)
  case jpV0 nnn =>
    cases h
    exact hs.setPc (toNat_jump_sum_le nnn _)
  case sys => exact absurd hu (not_unfaulted_of_raise h)
  case ldVxK x =>
    cases h
    exact hs.setRun_awaitingKey hw
  case ret =>
    unfold execRet at h
    split at h
    · exact absurd hu (not_unfaulted_of_raise h)
    next hpop =>
      obtain ⟨htarget, hready⟩ := hs.pop hpop
      cases h
      exact hready.setPc (htarget.trans (by decide))
  case call nnn =>
    unfold execCall at h
    split at h
    · exact absurd hu (not_unfaulted_of_raise h)
    next hpush =>
      cases h
      exact (hs.push hs.toNat_pc_add_two hpush).setPc (toNat_zextAddr_le nnn)
  case skp =>
    unfold execSkp execSkpUnder at h
    split at h
    · exact absurd hu (not_unfaulted_of_raise h)
    · cases h
      exact hs.skipIf _
  case sknp =>
    unfold execSknp execSknpUnder at h
    split at h
    · exact absurd hu (not_unfaulted_of_raise h)
    · cases h
      exact hs.skipIf _
  case drw =>
    unfold execDrw at h
    split at h
    · exact absurd hu (not_unfaulted_of_raise h)
    · cases h
      exact hs.advance_of_sameControl ⟨rfl, rfl, rfl, rfl, rfl⟩
  case ldFVx =>
    unfold execLdFVx execLdFVxUnder at h
    split at h
    · exact absurd hu (not_unfaulted_of_raise h)
    · cases h
      exact hs.advance_of_sameControl ⟨rfl, rfl, rfl, rfl, rfl⟩
  case ldVxMem =>
    unfold execLdVxMem execLdVxMemUnder at h
    split at h
    · exact absurd hu (not_unfaulted_of_raise h)
    · cases h
      exact hs.advance_of_sameControl ⟨rfl, rfl, rfl, rfl, rfl⟩
  case ldBVx =>
    unfold execLdBVx at h
    split at h
    · exact absurd hu (not_unfaulted_of_raise h)
    next hwrite =>
      cases h
      exact (hs.setMem (memWrite_wf hs.inv.mem_wf hwrite)).advance
  case ldMemVx =>
    unfold execLdMemVx execLdMemVxUnder at h
    split at h
    · exact absurd hu (not_unfaulted_of_raise h)
    next hwrite =>
      cases h
      exact (hs.setMem (memWrite_wf hs.inv.mem_wf hwrite)).advance_of_sameControl ⟨rfl, rfl, rfl, rfl, rfl⟩

/-- The record of a trap raised at execute fits the state (R50, R300). -/
theorem Trap.Explains.record_fits {c : Trap} {i : Instr} {s : State} {w : Word} (he : c.Explains i s)
    (hd : decode w = .ok i) (hw : s.wordAtPc = some w) : (c.record s.pc (some w)).Fits s := by
  refine ⟨c.record_pc _ _, (c.record_word _ _).trans hw.symm, ?_⟩
  have hew : encode i = w := encode_of_decode hd
  cases c with
  | decodeError =>
    obtain ⟨nnn, rfl⟩ := he
    exact ⟨⟨w, rfl, by rw [illegalWord, hd]; rfl⟩, rfl, rfl⟩
  | memoryOutOfRange a =>
    obtain ⟨_, hlo, hhi⟩ := he
    exact ⟨⟨a, rfl, hlo, by omega⟩, rfl⟩
  | stackUnderflow =>
    obtain ⟨rfl, hsp⟩ := he
    exact ⟨congrArg some hew.symm, hsp, rfl, rfl⟩
  | stackOverflow =>
    obtain ⟨⟨nnn, rfl⟩, hsp⟩ := he
    exact ⟨⟨nnn, congrArg some hew.symm⟩, hsp, rfl, rfl⟩
  | operandOutOfRange v => exact ⟨⟨v, rfl, he.2⟩, ⟨w, rfl⟩, rfl⟩

/-- An instruction executed where it was fetched keeps the invariant, whether it takes a fault or not. -/
theorem State.Ready.exec {i : Instr} {s t : State} {w : Word} (hs : s.Ready) (hd : decode w = .ok i)
    (hw : s.wordAtPc = some w) (h : exec i s = .next t) : t.Inv := by
  have hew : encode i = w := encode_of_decode hd
  by_cases hu : t.Unfaulted
  · exact hs.exec_of_unfaulted (hew ▸ hw) h hu
  · obtain ⟨f, hf⟩ : ∃ f, t.run = .faulted f := by simpa [State.Unfaulted] using hu
    obtain ⟨c, rfl, -, he⟩ := exec_fault hs.running h hf
    rw [hew]
    exact hs.inv.takeFault (he.record_fits hd hw)

/-! ## Every action keeps the invariant -/

/-- The record of a fetch fault fits: no word, and the lowest address out of range (R76). -/
theorem fetchFault_fits {s : State} (h : 0xFFF ≤ s.pc.toNat) :
    (Trap.record (.memoryOutOfRange (max s.pc.toNat 0x1000)) s.pc none).Fits s := by
  have := s.pc.isLt
  exact ⟨rfl, (State.wordAtPc_eq_none h).symm, ⟨_, rfl, by omega, by omega⟩, rfl⟩

/-- The record of a decode fault fits: the word is the one at PC, and it is illegal (R106). -/
theorem decodeFault_fits {s : State} {w : Word} {e : DecodeError} (hw : s.wordAtPc = some w) (hd : decode w = .error e) :
    (Trap.record .decodeError s.pc (some w)).Fits s :=
  ⟨rfl, hw.symm, ⟨w, rfl, by rw [illegalWord, hd]⟩, rfl, rfl⟩

theorem State.Inv.step {s t : State} (h : s.Inv) (hstep : step s = .next t) : t.Inv := by
  rw [Machine.step] at hstep
  rcases cycle_cases Machine.exec s with ⟨_, hc⟩ | ⟨_, hpc, hc⟩ | ⟨hrun, hpc, w, hfetch, hdec⟩
  · rw [hc] at hstep
    cases hstep
    exact h
  · rw [hc] at hstep
    cases hstep
    exact h.takeFault (fetchFault_fits hpc)
  · have hw : s.wordAtPc = some w := State.wordAtPc_eq_some hfetch
    rcases hdec with ⟨e, hd, hc⟩ | ⟨i, hd, hc⟩ <;> rw [hc] at hstep
    · cases hstep
      exact h.takeFault (decodeFault_fits hw hd)
    · exact State.Ready.exec ⟨h, hrun, hpc⟩ hd hw hstep

theorem State.Inv.singleStep {s : State} (h : s.Inv) : (singleStep s).2.Inv := by
  unfold Machine.singleStep
  split
  next hstep => exact h.step hstep
  · exact h
  · exact h

theorem State.Inv.tick {s : State} (h : s.Inv) : (tick s).Inv := h.congr ⟨rfl, rfl, rfl, rfl, rfl⟩

theorem State.Inv.setKey {s : State} (h : s.Inv) (k : KeyIdx) (b : Bool) : (s.setKey k b).Inv :=
  h.congr ⟨rfl, rfl, rfl, rfl, rfl⟩

/-- A key-down that ends a wait advances PC past an Fx0A that stands in memory (R277); any other only sets the latch. -/
theorem State.Inv.keyDown {s : State} (h : s.Inv) (k : KeyIdx) : (keyDown k s).Inv := by
  unfold Machine.keyDown
  split
  next x hrun =>
    split
    · exact h.setKey k true
    · have hword : s.wordAtPc = some (encode (.ldVxK x)) := by
        have := h.run_fits
        rwa [State.RunFits, hrun] at this
      have hready : (s.setRun .running).Ready := h.ready_setRun (State.pc_le_of_wordAtPc hword)
      exact (hready.congr (t := ((s.setKey k true).setReg x _).setRun .running) ⟨rfl, rfl, rfl, rfl, rfl⟩).advance
  · exact h.setKey k true
  · exact h.setKey k true

theorem ready_reset : State.reset.Ready where
  inv := ⟨rfl, by decide, fun _ hj => absurd hj (Nat.not_lt_zero _), trivial⟩
  running := rfl
  pc_le := by decide

/-- An accepted load starts from reset with the ROM's bytes written inside memory (R351); a refused one changes nothing (R352). -/
theorem State.Inv.load {s : State} (h : s.Inv) (rom : List Byte) : (load rom s).2.Inv := by
  unfold Machine.load loadUnder
  split
  · exact h
  next hlen =>
    have hready : (s.resetCore Config.hardware).Ready := ready_reset.congr ⟨rfl, rfl, rfl, rfl, rfl⟩
    have hfits : Config.programOrigin + rom.length ≤ Config.memSize := by
      simp only [Config.romMax, Config.programOrigin, Config.memSize] at hlen ⊢
      omega
    exact (hready.setMem (Memory.wf_writeList hready.inv.mem_wf rom hfits)).inv

theorem State.Inv.event {s : State} (h : s.Inv) (e : Event) : (e.apply s).Inv := by
  cases e with
  | cpuStep => exact h.singleStep
  | tick => exact h.tick
  | keyDown k => exact h.keyDown k
  | keyUp k => exact h.setKey k false
  | load rom => exact h.load rom

/-- Settles O16, by induction on the list of events. -/
theorem everyInterleavingKeepsInv : Obligations.EveryInterleavingKeepsInv := by
  intro es
  induction es with
  | nil => exact fun s h => h
  | cons e es ih => exact fun s h => ih (e.apply s) (h.event e)

/-- Settles O59, by cases on the instruction: each meaning that reads a parameter is defined as its parameterised form at this
hardware's values, and `execUnder` sends every other instruction to `exec`. -/
theorem parametersAtTheHardwareValues : Obligations.ParametersAtTheHardwareValues := by
  intro i s
  cases i
  case sys | jpV0 | orReg | andReg | xorReg | shr | shl | skp | sknp | ldFVx | ldMemVx | ldVxMem => rfl
  all_goals rfl

end Sys2Proof.Machine

/-! ## The step lemma of the invariant, and the reset values (10_state.md) -/

namespace Sys2Proof.Machine

/-- Settles O15: held and faulted steps change nothing, a fetch or decode fault latches a record that fits, and an instruction executed
where it was fetched keeps the invariant (`State.Inv.step`). -/
theorem stepKeepsInv : Obligations.StepKeepsInv := fun _ _ hinv hstep => hinv.step hstep

/-- Above the font the reset contents are 0 (R54, R81). -/
theorem Memory.unlisted_of_le {a : Nat} (h : 80 ≤ a) : Memory.unlisted a = 0#8 :=
  if_neg fun ⟨_, hlt⟩ => Nat.not_lt.mpr h (by simpa using hlt)

/-- Settles O17: reset lists no byte of memory, so each reads as its reset contents, and each vector repeats one value. -/
theorem resetValues : Obligations.ResetValues := by
  refine ⟨fun x => ?registers, rfl, rfl, rfl, rfl, rfl, fun k => ?keys, pixel_clearDisplay, rfl,
    fun a ha => Memory.unlisted_of_le ha, ?font⟩
  case registers => exact Vector.getElem_replicate x.isLt
  case keys => exact Vector.getElem_replicate k.isLt
  case font => decide

/-! ## Everything an instruction can write

One inversion lemma over all meanings (`exec_next`): an instruction takes a trap, which writes Run alone (R303), or completes, in the
form that `Completes` names. The frame statements read the fields off that form. -/

/-- From s to t a trap was taken and nothing else was written. -/
def State.Trapped (s t : State) : Prop := ∃ c w, t = s.takeFault c w

theorem trapped_of_raise {c : Trap} {i : Instr} {s t : State} (h : raise c i s = .next t) : s.Trapped t := by
  cases h
  exact ⟨c, _, rfl⟩

/-- The writes by which an instruction goes from s to t when it takes no trap, the values written left open. SYS never completes on
this hardware (R144), and Fx55 and Fx65 leave I, since `MEM_I_INCREMENT` is false (R225, R226). -/
def Completes (i : Instr) (s t : State) : Prop :=
  match i with
  | .sys _ => False
  | .ret => ∃ pc sp, t = { s with pc := pc, sp := sp }
  | .call _ => ∃ pc stack sp, t = { s with pc := pc, stack := stack, sp := sp }
  | .jp _ | .jpV0 _ => ∃ pc, t = s.setPc pc
  | .seByte _ _ | .sneByte _ _ | .seReg _ _ | .sneReg _ _ | .skp _ | .sknp _ => ∃ c, t = s.skipIf c
  | .ldByte x _ | .addByte x _ | .ldReg x _ | .orReg x _ | .andReg x _ | .xorReg x _ | .ldVxDt x =>
    ∃ b, t = (s.setReg x b).advance
  | .rnd x _ => ∃ b, t = (s.takeDraw.setReg x b).advance
  | .addReg x _ | .subReg x _ | .shr x _ | .subnReg x _ | .shl x _ => ∃ r f, t = (s.setResultFlag x r f).advance
  | .ldI _ | .addIVx _ | .ldFVx _ => ∃ w, t = (s.setI w).advance
  | .cls => ∃ d, t = (s.setDisp d).advance
  | .drw _ _ _ => ∃ d f, t = ((s.setDisp d).setReg vf f).advance
  | .ldVxK x => t = s.setRun (.awaitingKey x)
  | .ldDtVx _ => ∃ b, t = (s.setDt b).advance
  | .ldStVx _ => ∃ b, t = (s.setSt b).advance
  | .ldBVx x => ∃ m, memWrite s.mem s.i.toNat (bcdDigits (s.reg x)) = .ok m ∧ t = (s.setMem m).advance
  | .ldMemVx x => ∃ m, memWrite s.mem s.i.toNat (s.regsUpTo x) = .ok m ∧ t = (s.setMem m).advance
  | .ldVxMem x => ∃ bs, memRead s.mem s.i.toNat (x.val + 1) = .ok bs ∧ t = (s.setRegs bs).advance

/-- An instruction that answers a next state took a trap or completed. -/
theorem exec_next {i : Instr} {s t : State} (h : exec i s = .next t) : s.Trapped t ∨ Completes i s t := by
  cases i <;> simp only [exec] at h
  case cls | jp | jpV0 | seByte | sneByte | seReg | sneReg | ldByte | addByte | ldReg | orReg | andReg | xorReg | rnd | ldVxDt | ldI
      | addIVx | ldDtVx | ldStVx =>
    cases h
    exact .inr ⟨_, rfl⟩
  case addReg | subReg | shr | subnReg | shl =>
    cases h
    exact .inr ⟨_, _, rfl⟩
  case ldVxK =>
    cases h
    exact .inr rfl
  case sys => exact .inl (trapped_of_raise h)
  case ret =>
    rcases s.pop_cases with ⟨_, hpop⟩ | ⟨_, hpop⟩ <;> rw [execRet, hpop] at h
    · exact .inl (trapped_of_raise h)
    · cases h
      exact .inr ⟨_, _, rfl⟩
  case call =>
    rcases s.push_cases (s.pc + 2#16) with ⟨_, hpush⟩ | ⟨_, hpush⟩ <;> rw [execCall, hpush] at h
    · cases h
      exact .inr ⟨_, _, _, rfl⟩
    · exact .inl (trapped_of_raise h)
  case skp | sknp | ldFVx =>
    simp only [execSkp, execSkpUnder, execSknp, execSknpUnder, execLdFVx, execLdFVxUnder] at h
    split at h
    · exact .inl (trapped_of_raise h)
    · cases h
      exact .inr ⟨_, rfl⟩
  case drw =>
    unfold execDrw at h
    split at h
    · exact .inl (trapped_of_raise h)
    · cases h
      exact .inr ⟨_, _, rfl⟩
  case ldBVx | ldMemVx | ldVxMem =>
    simp only [execLdBVx, execLdMemVx, execLdMemVxUnder, execLdVxMem, execLdVxMemUnder] at h
    split at h
    · exact .inl (trapped_of_raise h)
    next haccess =>
      cases h
      exact .inr ⟨_, haccess, rfl⟩

/-! ### The registers (R31, R32) -/

theorem State.reg_setReg_of_ne (s : State) {x k : RegIdx} (b : Byte) (h : k ≠ x) : (s.setReg x b).reg k = s.reg k := by
  rw [State.reg_setReg, if_neg h]

theorem State.reg_setResultFlag_of_ne (s : State) {x k : RegIdx} (r f : Byte) (hx : k ≠ x) (hf : k ≠ vf) :
    (s.setResultFlag x r f).reg k = s.reg k := by
  rw [State.reg_setResultFlag, if_neg hf, if_neg hx]

theorem State.reg_setRegs_of_length_le (s : State) {bs : List Byte} {k : RegIdx} (h : bs.length ≤ k.val) :
    (s.setRegs bs).reg k = s.reg k := by
  rw [State.reg_setRegs, List.getD_eq_default _ _ h]

/-- A checked read answers as many bytes as it was asked for (R74). -/
theorem length_of_memRead {m : Memory} {a n : Nat} {bs : List Byte} (h : memRead m a n = .ok bs) : bs.length = n := by
  rcases memRead_cases m a n with ⟨_, hr⟩ | ⟨_, _, hr⟩ <;> rw [hr] at h <;> cases h
  exact m.length_readList a n

/-- Settles O19, by cases on how the instruction went: a trap writes no register, and a completed instruction writes by `setReg`,
`setResultFlag` or `setRegs`, each of which leaves the registers it does not name. -/
theorem registersChangeOnlyAsNamed : Obligations.RegistersChangeOnlyAsNamed := by
  intro i s t k h hdest hflag
  rcases exec_next h with ⟨c, w, rfl⟩ | hc
  · exact s.reg_takeFault c w k
  cases i
  case sys => exact hc.elim
  case ldVxK =>
    cases hc
    rfl
  case jp | jpV0 | seByte | sneByte | seReg | sneReg | skp | sknp | ldI | addIVx | ldFVx | cls | ldDtVx | ldStVx =>
    obtain ⟨_, rfl⟩ := hc
    rfl
  case ldBVx | ldMemVx =>
    obtain ⟨_, _, rfl⟩ := hc
    rfl
  case ret =>
    obtain ⟨_, _, rfl⟩ := hc
    rfl
  case call =>
    obtain ⟨_, _, _, rfl⟩ := hc
    rfl
  case ldByte | addByte | ldReg | orReg | andReg | xorReg | ldVxDt =>
    obtain ⟨b, rfl⟩ := hc
    exact s.reg_setReg_of_ne b (ne_of_beq_false hdest)
  case rnd =>
    obtain ⟨b, rfl⟩ := hc
    exact s.takeDraw.reg_setReg_of_ne b (ne_of_beq_false hdest)
  case addReg | subReg | shr | subnReg | shl =>
    obtain ⟨r, f, rfl⟩ := hc
    exact s.reg_setResultFlag_of_ne r f (ne_of_beq_false hdest) (mt hflag nofun)
  case drw =>
    obtain ⟨d, f, rfl⟩ := hc
    exact (s.setDisp d).reg_setReg_of_ne f (mt hflag nofun)
  case ldVxMem x =>
    obtain ⟨bs, hread, rfl⟩ := hc
    have hxk : x < k := not_le.mp (of_decide_eq_false hdest)
    exact s.reg_setRegs_of_length_le ((length_of_memRead hread).trans_le hxk)

/-! ### I, the stack, the timers, the display and the keypad latch (R34, R40, R43, R44, R46, R51) -/

/-- From s to t each of these fields changes only if the rules name the instruction as one that writes it. -/
structure ChangesAsNamed (ins : Instr) (s t : State) : Prop where
  i     : ins.writesI = false → t.i = s.i
  stack : ins.writesStack = false → t.stack = s.stack ∧ t.sp = s.sp
  dt    : ins.writesDt = false → t.dt = s.dt
  st    : ins.writesSt = false → t.st = s.st
  disp  : ins.writesDisplay = false → t.disp = s.disp
  key   : t.key = s.key

/-- A change that leaves all of these fields is one any instruction may make. -/
theorem ChangesAsNamed.of_eq {ins : Instr} {s t : State} (hi : t.i = s.i) (hstack : t.stack = s.stack) (hsp : t.sp = s.sp)
    (hdt : t.dt = s.dt) (hst : t.st = s.st) (hdisp : t.disp = s.disp) (hkey : t.key = s.key) : ChangesAsNamed ins s t :=
  ⟨fun _ => hi, fun _ => ⟨hstack, hsp⟩, fun _ => hdt, fun _ => hst, fun _ => hdisp, hkey⟩

theorem Completes.changesAsNamed {i : Instr} {s t : State} (h : Completes i s t) : ChangesAsNamed i s t := by
  cases i
  case sys => exact h.elim
  case ldVxK =>
    cases h
    exact .of_eq rfl rfl rfl rfl rfl rfl rfl
  case jp | jpV0 | seByte | sneByte | seReg | sneReg | skp | sknp | ldByte | addByte | ldReg | orReg | andReg | xorReg | ldVxDt
      | rnd =>
    obtain ⟨_, rfl⟩ := h
    exact .of_eq rfl rfl rfl rfl rfl rfl rfl
  case addReg | subReg | shr | subnReg | shl | ldBVx | ldMemVx | ldVxMem =>
    obtain ⟨_, _, rfl⟩ := h
    exact .of_eq rfl rfl rfl rfl rfl rfl rfl
  case ldI | addIVx | ldFVx =>
    obtain ⟨_, rfl⟩ := h
    exact ⟨nofun, fun _ => ⟨rfl, rfl⟩, fun _ => rfl, fun _ => rfl, fun _ => rfl, rfl⟩
  case ret =>
    obtain ⟨_, _, rfl⟩ := h
    exact ⟨fun _ => rfl, nofun, fun _ => rfl, fun _ => rfl, fun _ => rfl, rfl⟩
  case call =>
    obtain ⟨_, _, _, rfl⟩ := h
    exact ⟨fun _ => rfl, nofun, fun _ => rfl, fun _ => rfl, fun _ => rfl, rfl⟩
  case ldDtVx =>
    obtain ⟨_, rfl⟩ := h
    exact ⟨fun _ => rfl, fun _ => ⟨rfl, rfl⟩, nofun, fun _ => rfl, fun _ => rfl, rfl⟩
  case ldStVx =>
    obtain ⟨_, rfl⟩ := h
    exact ⟨fun _ => rfl, fun _ => ⟨rfl, rfl⟩, fun _ => rfl, nofun, fun _ => rfl, rfl⟩
  case cls =>
    obtain ⟨_, rfl⟩ := h
    exact ⟨fun _ => rfl, fun _ => ⟨rfl, rfl⟩, fun _ => rfl, fun _ => rfl, nofun, rfl⟩
  case drw =>
    obtain ⟨_, _, rfl⟩ := h
    exact ⟨fun _ => rfl, fun _ => ⟨rfl, rfl⟩, fun _ => rfl, fun _ => rfl, nofun, rfl⟩

/-- Settles O20, by cases on how the instruction went: a trap writes Run alone, and a completed instruction writes those of these fields
that the rules name (`Completes.changesAsNamed`). -/
theorem specialStateChangesOnlyAsNamed : Obligations.SpecialStateChangesOnlyAsNamed := by
  intro i s t h
  have hchanges : ChangesAsNamed i s t := by
    rcases exec_next h with ⟨c, w, rfl⟩ | hc
    · exact .of_eq rfl rfl rfl rfl rfl rfl rfl
    · exact hc.changesAsNamed
  exact ⟨hchanges.i, hchanges.stack, hchanges.dt, hchanges.st, hchanges.disp, hchanges.key⟩

end Sys2Proof.Machine

/-! ## The fetch and what a store does to memory (20_memory.md) -/

namespace Sys2Proof.Machine

/-! ### The fetch (R76) -/

theorem fetch16_of_le (m : Memory) {pc : Nat} (h : pc ≤ 0xFFE) :
    fetch16 m pc = .ok (wordOfBytes (m.read pc) (m.read (pc + 1))) := by
  rcases fetch16_cases m pc with ⟨_, hf⟩ | ⟨hpc, _⟩
  · exact hf
  · omega

theorem State.wordAtPc_of_le {s : State} (h : s.pc.toNat ≤ 0xFFE) :
    s.wordAtPc = some (wordOfBytes (s.mem.read s.pc.toNat) (s.mem.read (s.pc.toNat + 1))) :=
  State.wordAtPc_eq_some (fetch16_of_le s.mem h)

/-- A step of a running core takes the fetch fault, with no word, where PC + 1 leaves memory (R76). -/
theorem step_of_fetch_out_of_range {s : State} (hrun : s.run = .running) (hpc : 0xFFF ≤ s.pc.toNat) :
    step s = .next (s.takeFault (.memoryOutOfRange (max s.pc.toNat 0x1000)) none) := by
  rcases cycle_cases exec s with ⟨hr, _⟩ | ⟨_, _, hc⟩ | ⟨_, hle, _⟩
  · exact absurd hrun hr
  · exact hc
  · omega

/-- Settles O7: a fetch inside memory answers the two bytes as one word, high byte first, and outside it the cycle takes the fetch
fault. -/
theorem fetchIsBigEndianAndChecked : Obligations.FetchIsBigEndianAndChecked := by
  refine ⟨fun m pc hpc => ?fetch, fun s hrun hpc => ?fault⟩
  case fetch => exact ⟨_, fetch16_of_le m (by omega), toNat_wordOfBytes _ _⟩
  case fault => exact ⟨_, step_of_fetch_out_of_range hrun hpc, rfl⟩

/-! ### What a checked write leaves and what it puts (R74, R86) -/

/-- A checked write that succeeds wrote the whole list, inside memory. -/
theorem eq_writeList_of_memWrite {m m' : Memory} {a : Nat} {vs : List Byte} (h : memWrite m a vs = .ok m') :
    (vs = [] ∨ a + vs.length ≤ 0x1000) ∧ m' = m.writeList a vs := by
  rcases memWrite_cases m a vs with ⟨hfits, hw⟩ | ⟨_, _, hw⟩ <;> rw [hw] at h <;> cases h
  exact ⟨hfits, rfl⟩

theorem memWrite_of_le (m : Memory) {a : Nat} {vs : List Byte} (h : a + vs.length ≤ 0x1000) :
    memWrite m a vs = .ok (m.writeList a vs) := by
  rw [memWrite, checkRange_ok (.inr h)]

/-- A checked write leaves every byte outside its range. -/
theorem read_of_memWrite {m m' : Memory} {a k : Nat} {vs : List Byte} (hm : m.wf = true) (h : memWrite m a vs = .ok m')
    (hk : ¬(a ≤ k ∧ k < a + vs.length)) : m'.read k = m.read k := by
  obtain ⟨rfl | hfits, rfl⟩ := eq_writeList_of_memWrite h
  · rfl
  rw [Memory.read_writeList hm vs hfits]
  split
  · exact List.getD_eq_default _ _ (by omega)
  · rfl

/-- The byte j places after the start of a written list is the list's j-th. -/
theorem Memory.read_writeList_add {m : Memory} (hm : m.wf = true) {a : Nat} {vs : List Byte}
    (hfits : a + vs.length ≤ 0x1000) (j : Nat) : (m.writeList a vs).read (a + j) = vs.getD j (m.read (a + j)) := by
  rw [Memory.read_writeList hm vs hfits, if_pos (Nat.le_add_right a j), Nat.add_sub_cancel_left]

/-! ### Which bytes an instruction stores (R71) -/

/-- From s to t the instruction leaves memory, or writes at I, under the range check, a list that fills the bytes it stores to. -/
def StoresAsNamed (i : Instr) (s t : State) : Prop :=
  t.mem = s.mem ∨
    ∃ vs, memWrite s.mem s.i.toNat vs = .ok t.mem ∧
      ∀ a, i.storesTo s a = decide (s.i.toNat ≤ a ∧ a < s.i.toNat + vs.length)

theorem Completes.storesAsNamed {i : Instr} {s t : State} (h : Completes i s t) : StoresAsNamed i s t := by
  cases i
  case ldBVx x =>
    obtain ⟨m, hw, rfl⟩ := h
    exact .inr ⟨bcdDigits (s.reg x), hw, fun _ => rfl⟩
  case ldMemVx x =>
    obtain ⟨m, hw, rfl⟩ := h
    exact .inr ⟨s.regsUpTo x, hw, fun a => by rw [s.length_regsUpTo x]; rfl⟩
  case sys => exact h.elim
  case ldVxK =>
    cases h
    exact .inl rfl
  case jp | jpV0 | seByte | sneByte | seReg | sneReg | skp | sknp | ldByte | addByte | ldReg | orReg | andReg | xorReg | ldVxDt
      | rnd | ldI | addIVx | ldFVx | cls | ldDtVx | ldStVx =>
    obtain ⟨_, rfl⟩ := h
    exact .inl rfl
  case ret | addReg | subReg | shr | subnReg | shl | drw | ldVxMem =>
    obtain ⟨_, _, rfl⟩ := h
    exact .inl rfl
  case call =>
    obtain ⟨_, _, _, rfl⟩ := h
    exact .inl rfl

theorem exec_storesAsNamed {i : Instr} {s t : State} (h : exec i s = .next t) : StoresAsNamed i s t := by
  rcases exec_next h with ⟨c, w, rfl⟩ | hc
  · exact .inl rfl
  · exact hc.storesAsNamed

/-- Settles O18, by cases on what the instruction did to memory: it left it, or wrote, under the range check, the bytes it stores to
(`exec_storesAsNamed`), and a checked write keeps the canonical form and every byte outside its range. -/
theorem onlyStoresChangeMemory : Obligations.OnlyStoresChangeMemory := by
  intro i s t hwf h
  rcases exec_storesAsNamed h with hmem | ⟨vs, hw, hrange⟩
  · rw [hmem]
    exact ⟨hwf, fun _ _ => rfl⟩
  · refine ⟨memWrite_wf hwf hw, fun a ha => ?_⟩
    rw [hrange a, decide_eq_false_iff_not] at ha
    exact read_of_memWrite hwf hw ha

/-! ### A store and the fetch after it (R89, R357) -/

theorem State.add_length_regsUpTo_le {s : State} {x : RegIdx} (h : s.i.toNat + x.val ≤ 0xFFF) :
    s.i.toNat + (s.regsUpTo x).length ≤ 0x1000 := by
  rw [State.length_regsUpTo]
  omega

/-- Fx55 whose range fits stores V0 to Vx at I and leaves I, as `MEM_I_INCREMENT` is false (R225). -/
theorem exec_ldMemVx_of_le {x : RegIdx} {s : State} (h : s.i.toNat + x.val ≤ 0xFFF) :
    exec (.ldMemVx x) s = .next (s.setMem (s.mem.writeList s.i.toNat (s.regsUpTo x))).advance := by
  rw [exec, execLdMemVx, execLdMemVxUnder, memWrite_of_le s.mem (State.add_length_regsUpTo_le h)]
  rfl

/-- The byte at I + k after V0 to Vx are stored at I is V[k] (R225). -/
theorem State.read_writeList_regsUpTo {s : State} (hm : s.mem.wf = true) {x k : RegIdx}
    (hx : s.i.toNat + x.val ≤ 0xFFF) (hk : k ≤ x) :
    (s.mem.writeList s.i.toNat (s.regsUpTo x)).read (s.i.toNat + k.val) = s.reg k := by
  rw [Memory.read_writeList_add hm (State.add_length_regsUpTo_le hx), State.getD_regsUpTo s x k _ hk]

/-- Settles O21: Fx55 leaves PC at I, where V0 and V1 now stand, and the fetch reads what stands there. -/
theorem storeIsSeenByTheNextFetch : Obligations.StoreIsSeenByTheNextFetch := by
  intro x s hwf hx hi hfits
  have h0 : (s.mem.writeList s.i.toNat (s.regsUpTo x)).read s.i.toNat = s.reg 0 :=
    State.read_writeList_regsUpTo hwf hfits (Fin.zero_le x)
  have h1 : (s.mem.writeList s.i.toNat (s.regsUpTo x)).read (s.i.toNat + 1) = s.reg 1 :=
    State.read_writeList_regsUpTo hwf hfits (k := 1) hx
  refine ⟨_, exec_ldMemVx_of_le hfits, ?_⟩
  have hpc : (s.setMem (s.mem.writeList s.i.toNat (s.regsUpTo x))).advance.pc = s.i := hi.symm
  rw [State.wordAtPc_of_le (by rw [hpc]; omega), hpc]
  exact congrArg some (congrArg₂ wordOfBytes h0 h1)

end Sys2Proof.Machine

/-! ## The decoder, the encoder and the opcode table (30_encoding.md R101 to R107) -/

namespace Sys2Proof

open Sys2Proof.Machine

/-! ### Family 0 (R105) -/

theorem decode_sys {w : Word} (hop : (opOf w).toNat = 0) (hcls : w ≠ 0x00E0#16) (hret : w ≠ 0x00EE#16) :
    decode w = .ok (.sys (nnnOf w)) := by
  simp [decode, hop, decode0, hcls, hret]

/-- The words that decode to SYS are those of family 0 other than CLS and RET. -/
theorem exists_decode_sys_iff {w : Word} :
    (∃ nnn, decode w = .ok (.sys nnn)) ↔ (opOf w).toNat = 0 ∧ w ≠ 0x00E0#16 ∧ w ≠ 0x00EE#16 := by
  constructor
  · rintro ⟨nnn, h⟩
    refine ⟨?family, ?notCls, ?notRet⟩
    case family =>
      rw [← encode_of_decode h]
      exact (fields_formatNNN 0x0#4 nnn).1
    case notCls | notRet =>
      rintro rfl
      cases h
  · exact fun ⟨hop, hcls, hret⟩ => ⟨_, decode_sys hop hcls hret⟩

theorem encode_sys_inj {nnn m : Addr12} : encode (.sys nnn) = encode (.sys m) ↔ nnn = m := by
  refine ⟨fun h => ?_, fun h => h ▸ rfl⟩
  calc nnn = nnnOf (encode (.sys nnn)) := (fields_formatNNN 0x0#4 nnn).2.symm
    _ = nnnOf (encode (.sys m)) := congrArg nnnOf h
    _ = m := (fields_formatNNN 0x0#4 m).2

/-- A SYS is well-formed where its word is neither that of CLS nor that of RET. -/
theorem wellFormed_sys_iff {nnn : Addr12} : (Instr.sys nnn).wellFormed = true ↔
    encode (.sys nnn) ≠ 0x00E0#16 ∧ encode (.sys nnn) ≠ 0x00EE#16 := by
  have hcls : encode (.sys nnn) = 0x00E0#16 ↔ nnn = 0x0E0#12 := encode_sys_inj (m := 0x0E0#12)
  have hret : encode (.sys nnn) = 0x00EE#16 ↔ nnn = 0x0EE#12 := encode_sys_inj (m := 0x0EE#12)
  rw [ne_eq, ne_eq, hcls, hret]
  simp [Instr.wellFormed]

/-! ### The two round trips -/

/-- The decoder reads back from each format's word the fields it was made of (R101). -/
theorem decode_encode {i : Instr} (hwf : i.wellFormed = true) : decode (encode i) = .ok i := by
  cases i
  case cls | ret => rfl
  case sys nnn =>
    obtain ⟨hcls, hret⟩ := wellFormed_sys_iff.mp hwf
    obtain ⟨hop, hnnn⟩ := fields_formatNNN 0x0#4 nnn
    exact (decode_sys hop hcls hret).trans (by rw [hnnn])
  case jp | call | ldI | jpV0 => simp [encode, decode, fields_formatNNN]
  case seByte | sneByte | ldByte | addByte | rnd => simp [encode, decode, fields_formatXKK]
  case seReg | sneReg | drw => simp [encode, decode, fields_formatXYN]
  case ldReg | orReg | andReg | xorReg | addReg | subReg | shr | subnReg | shl =>
    simp [encode, decode, decode8, fields_formatXYN]
  case skp | sknp => simp [encode, decode, decodeE, fields_formatXKK]
  case ldVxDt | ldVxK | ldDtVx | ldStVx | addIVx | ldFVx | ldBVx | ldMemVx | ldVxMem =>
    simp [encode, decode, decodeF, fields_formatXKK]

/-- Settles O1, by cases on the instruction, one format at a time. -/
theorem decodeOfEncodeIsTheInstruction : Obligations.DecodeOfEncodeIsTheInstruction := fun _ => decode_encode

theorem wellFormed_of_decode {w : Word} {i : Instr} (h : decode w = .ok i) : i.wellFormed = true := by
  cases i
  case sys nnn =>
    rw [wellFormed_sys_iff, encode_of_decode h]
    exact (exists_decode_sys_iff.mp ⟨nnn, h⟩).2
  all_goals rfl

/-- Settles O2: the word is rebuilt family by family in `encode_of_decode`. -/
theorem encodeOfDecodeIsTheWord : Obligations.EncodeOfDecodeIsTheWord :=
  fun _ _ h => ⟨encode_of_decode h, wellFormed_of_decode h⟩

/-! ### The rows of the opcode table -/

theorem tableRow_has_encode (i : Instr) : (tableRow i).has (encode i) = true :=
  match i with
  | .cls => Laws.TableRow.cls
  | .ret => Laws.TableRow.ret
  | .sys nnn => Laws.TableRow.sys nnn
  | .jp nnn => Laws.TableRow.jp nnn
  | .call nnn => Laws.TableRow.call nnn
  | .seByte x kk => Laws.TableRow.seByte x kk
  | .sneByte x kk => Laws.TableRow.sneByte x kk
  | .seReg x y => Laws.TableRow.seReg x y
  | .ldByte x kk => Laws.TableRow.ldByte x kk
  | .addByte x kk => Laws.TableRow.addByte x kk
  | .ldReg x y => Laws.TableRow.ldReg x y
  | .orReg x y => Laws.TableRow.orReg x y
  | .andReg x y => Laws.TableRow.andReg x y
  | .xorReg x y => Laws.TableRow.xorReg x y
  | .addReg x y => Laws.TableRow.addReg x y
  | .subReg x y => Laws.TableRow.subReg x y
  | .shr x y => Laws.TableRow.shr x y
  | .subnReg x y => Laws.TableRow.subnReg x y
  | .shl x y => Laws.TableRow.shl x y
  | .sneReg x y => Laws.TableRow.sneReg x y
  | .ldI nnn => Laws.TableRow.ldI nnn
  | .jpV0 nnn => Laws.TableRow.jpV0 nnn
  | .rnd x kk => Laws.TableRow.rnd x kk
  | .drw x y n => Laws.TableRow.drw x y n
  | .skp x => Laws.TableRow.skp x
  | .sknp x => Laws.TableRow.sknp x
  | .ldVxDt x => Laws.TableRow.ldVxDt x
  | .ldVxK x => Laws.TableRow.ldVxK x
  | .ldDtVx x => Laws.TableRow.ldDtVx x
  | .ldStVx x => Laws.TableRow.ldStVx x
  | .addIVx x => Laws.TableRow.addIVx x
  | .ldFVx x => Laws.TableRow.ldFVx x
  | .ldBVx x => Laws.TableRow.ldBVx x
  | .ldMemVx x => Laws.TableRow.ldMemVx x
  | .ldVxMem x => Laws.TableRow.ldVxMem x

theorem Row.and_mask_of_has {r : Row} {w : Word} (h : r.has w = true) : w &&& r.mask = r.value := eq_of_beq h

/-- A field that a row's mask fixes whole is the field of the row's match. -/
theorem Row.extractLsb'_of_has {r : Row} {w : Word} (h : r.has w = true) {start len : Nat}
    (hm : r.mask.extractLsb' start len = BitVec.allOnes len) : w.extractLsb' start len = r.value.extractLsb' start len := by
  rw [← Row.and_mask_of_has h, BitVec.extractLsb'_and, hm, BitVec.and_allOnes]

/-- Every row fixes the family. -/
theorem toNat_opOf_of_has {i : Instr} {w : Word} (h : (tableRow i).has w = true) :
    (opOf w).toNat = (tableRow i).value.toNat / 4096 := by
  have hm : (tableRow i).mask.extractLsb' 12 4 = BitVec.allOnes 4 := by cases i <;> simp [tableRow]
  rw [← toNat_opOf, opOf, Row.extractLsb'_of_has h hm, opOf]

theorem toNat_nOf_of_has {i : Instr} {w : Word} (h : (tableRow i).has w = true) (hm : (tableRow i).mask = 0xF00F#16) :
    (nOf w).toNat = (tableRow i).value.toNat % 16 := by
  rw [← toNat_nOf, nOf, Row.extractLsb'_of_has h (by rw [hm]; rfl), nOf]

theorem toNat_kkOf_of_has {i : Instr} {w : Word} (h : (tableRow i).has w = true) (hm : (tableRow i).mask = 0xF0FF#16) :
    (kkOf w).toNat = (tableRow i).value.toNat % 256 := by
  rw [← toNat_kkOf, kkOf, Row.extractLsb'_of_has h (by rw [hm]; rfl), kkOf]

theorem eq_value_of_has {i : Instr} {w : Word} (h : (tableRow i).has w = true) (hm : (tableRow i).mask = 0xFFFF#16) :
    w = (tableRow i).value := by
  rw [← Row.and_mask_of_has h, hm]
  exact BitVec.and_allOnes.symm

/-- A word in a row has the family and the sub-selector that the row fixes, and those pick the decoder's branch. -/
theorem decode_of_has {i : Instr} {w : Word} (h : (tableRow i).has w = true) :
    ∃ j, decode w = .ok j ∧ (tableRow j = tableRow i ∨ (w = 0x00E0#16 ∧ j = .cls) ∨ (w = 0x00EE#16 ∧ j = .ret)) := by
  have hop := toNat_opOf_of_has h
  cases i
  case cls =>
    obtain rfl : w = 0x00E0#16 := eq_value_of_has h rfl
    exact ⟨.cls, rfl, .inl rfl⟩
  case ret =>
    obtain rfl : w = 0x00EE#16 := eq_value_of_has h rfl
    exact ⟨.ret, rfl, .inl rfl⟩
  case sys =>
    by_cases hcls : w = 0x00E0#16
    · exact ⟨.cls, by rw [hcls]; rfl, .inr (.inl ⟨hcls, rfl⟩)⟩
    by_cases hret : w = 0x00EE#16
    · exact ⟨.ret, by rw [hret]; rfl, .inr (.inr ⟨hret, rfl⟩)⟩
    exact ⟨_, decode_sys (by simpa [tableRow] using hop) hcls hret, .inl rfl⟩
  case jp | call | ldI | jpV0 | seByte | sneByte | ldByte | addByte | rnd | drw => simp [decode, hop, tableRow]
  case seReg | sneReg =>
    have hn : (nOf w).toNat = 0 := by simpa [tableRow] using toNat_nOf_of_has h rfl
    simp [decode, hop, BitVec.eq_of_toNat_eq (y := 0#4) hn, tableRow]
  case ldReg | orReg | andReg | xorReg | addReg | subReg | shr | subnReg | shl =>
    have hn := toNat_nOf_of_has h rfl
    simp [decode, decode8, hop, hn, tableRow]
  case skp | sknp =>
    have hkk := toNat_kkOf_of_has h rfl
    simp [decode, decodeE, hop, hkk, tableRow]
  case ldVxDt | ldVxK | ldDtVx | ldStVx | addIVx | ldFVx | ldBVx | ldMemVx | ldVxMem =>
    have hkk := toNat_kkOf_of_has h rfl
    simp [decode, decodeF, hop, hkk, tableRow]

/-- Settles O3: a decoded word is its instruction's own (`encode_of_decode`), which stands in the row; the converse is
`decode_of_has`. -/
theorem decodeFollowsTheOpcodeTable : Obligations.DecodeFollowsTheOpcodeTable :=
  ⟨fun _ i h => encode_of_decode h ▸ tableRow_has_encode i, fun _ _ => decode_of_has⟩

/-! ### The illegal words (R106, R107) -/

/-- A word is illegal where the decoder rejects it, and under `SYS_POLICY = DecodeError` where it decodes to SYS. -/
theorem illegalWord_iff {p : Config.SysPolicy} {w : Word} : illegalWord p w = true ↔
    (∃ e, decode w = .error e) ∨ (p = .decodeError ∧ ∃ nnn, decode w = .ok (.sys nnn)) := by
  unfold illegalWord
  split <;> simp_all

theorem toNat_nOf_ne_zero {w : Word} (h : nOf w ≠ 0#4) : (nOf w).toNat ≠ 0 :=
  fun h0 => h (BitVec.eq_of_toNat_eq h0)

theorem decode0_ne_error (w : Word) (e : DecodeError) : decode0 w ≠ .error e := by
  unfold decode0
  split
  · nofun
  · split <;> nofun

theorem decode8_error_iff (w : Word) :
    (∃ e, decode8 w = .error e) ↔ (nOf w).toNat ∈ [0x8, 0x9, 0xA, 0xB, 0xC, 0xD, 0xF] := by
  have hrest : ∀ n < 16, n ∉ [0x0, 0x1, 0x2, 0x3, 0x4, 0x5, 0x6, 0x7, 0xE] → n ∈ [0x8, 0x9, 0xA, 0xB, 0xC, 0xD, 0xF] := by
    decide
  unfold decode8
  split
  case h_10 => exact iff_of_true ⟨_, rfl⟩ (hrest _ (nOf w).isLt (by simp_all))
  all_goals simp [*]

theorem decodeE_error_iff (w : Word) : (∃ e, decodeE w = .error e) ↔ (kkOf w).toNat ∉ [0x9E, 0xA1] := by
  unfold decodeE
  split <;> simp_all

theorem decodeF_error_iff (w : Word) : (∃ e, decodeF w = .error e) ↔
    (kkOf w).toNat ∉ [0x07, 0x0A, 0x15, 0x18, 0x1E, 0x29, 0x33, 0x55, 0x65] := by
  unfold decodeF
  split <;> simp_all

/-- The words the decoder rejects, by family (R106). -/
theorem decode_error_iff (w : Word) : (∃ e, decode w = .error e) ↔
    ((opOf w).toNat = 0x5 ∧ (nOf w).toNat ≠ 0) ∨
    ((opOf w).toNat = 0x8 ∧ (nOf w).toNat ∈ [0x8, 0x9, 0xA, 0xB, 0xC, 0xD, 0xF]) ∨
    ((opOf w).toNat = 0x9 ∧ (nOf w).toNat ≠ 0) ∨
    ((opOf w).toNat = 0xE ∧ (kkOf w).toNat ∉ [0x9E, 0xA1]) ∨
    ((opOf w).toNat = 0xF ∧ (kkOf w).toNat ∉ [0x07, 0x0A, 0x15, 0x18, 0x1E, 0x29, 0x33, 0x55, 0x65]) := by
  unfold decode
  split
  -- The split's n-th case is family n - 1, the last one no family.
  case h_1 hop => simp [hop, decode0_ne_error]
  case h_2 hop | h_3 hop | h_4 hop | h_5 hop | h_7 hop | h_8 hop | h_11 hop | h_12 hop | h_13 hop | h_14 hop => simp [hop]
  case h_6 hop | h_10 hop =>
    by_cases hn : nOf w = 0#4
    · simp [hop, hn]
    · simp [hop, hn, toNat_nOf_ne_zero hn]
  case h_9 hop => simp [hop, decode8_error_iff]
  case h_15 hop => simp [hop, decodeE_error_iff]
  case h_16 hop => simp [hop, decodeF_error_iff]
  case h_17 =>
    simp only [imp_false] at *
    have := (opOf w).isLt
    omega

/-- Settles O4: the decoder rejects the five shapes (`decode_error_iff`), and the words that decode to SYS are the rest of
family 0. -/
theorem illegalWordsAreTheListedShapes : Obligations.IllegalWordsAreTheListedShapes := by
  have hnoOp (w : Word) : illegalWord .noOp w = true ↔ ∃ e, decode w = .error e := by simp [illegalWord_iff]
  refine ⟨fun w => (hnoOp w).trans (decode_error_iff w), fun w => ?_⟩
  rw [hnoOp, illegalWord_iff, exists_decode_sys_iff]
  simp

/-! ### The decode-action table DROM (R103, R104) -/

theorem toNat_dromGroup_drom : ∀ f : Fin 16, (dromGroup drom[f.val]).toNat = f.val := by decide

/-- DROM's entry for a family names the family as its handler group (R104), so its selector kind alone decides what the handler
sees. -/
theorem decodeViaDrom_eq {w : Word} {n : Nat} {k : Selector} (hop : (opOf w).toNat = n) (hn : n < 16)
    (hk : dromSelector drom[n] = some k) : decodeViaDrom w = dromHandler n (subSelector k w) w := by
  subst hop
  rw [decodeViaDrom, hk]
  exact congrArg (dromHandler · (subSelector k w) w) (toNat_dromGroup_drom ⟨_, hn⟩)

/-! The handlers of the families that have a sub-selector. `rw [dromHandler]` picks the equation of an illegal pair, whose side goals
say that the pair is none of the listed ones. -/

theorem dromHandler_selNnn (w : Word) (hop : (opOf w).toNat = 0) :
    dromHandler 0x0 (some (nnnOf w).toNat) w = decode0 w := by
  have hw : (nnnOf w).toNat = w.toNat := by
    rw [toNat_opOf] at hop
    rw [toNat_nnnOf]
    omega
  rw [hw, decode0]
  split
  next h => rw [h]; rfl
  next hcls =>
    split
    next h => rw [h]; rfl
    next hret =>
      rw [← BitVec.toNat_inj] at hcls hret
      rw [dromHandler] <;> simp_all

theorem dromHandler_selN (w : Word) : dromHandler 0x8 (some (nOf w).toNat) w = decode8 w := by
  unfold decode8
  split
  case h_10 => rw [dromHandler] <;> simp_all
  all_goals
    next hn => rw [hn]; rfl

theorem dromHandler_selKk_of_E (w : Word) : dromHandler 0xE (some (kkOf w).toNat) w = decodeE w := by
  unfold decodeE
  split
  case h_3 => rw [dromHandler] <;> simp_all
  all_goals
    next hn => rw [hn]; rfl

theorem dromHandler_selKk_of_F (w : Word) : dromHandler 0xF (some (kkOf w).toNat) w = decodeF w := by
  unfold decodeF
  split
  case h_10 => rw [dromHandler] <;> simp_all
  all_goals
    next hn => rw [hn]; rfl

/-- Settles O5, by cases on the family: an entry of kind `ONE` goes straight to its instruction, and each other kind has
its lemma. -/
theorem decodeThroughDromIsDecode : Obligations.DecodeThroughDromIsDecode := by
  intro w
  unfold decode
  split
  case h_1 hop => rw [decodeViaDrom_eq hop (by decide) rfl]; exact dromHandler_selNnn w hop
  case h_2 hop | h_3 hop | h_4 hop | h_5 hop | h_7 hop | h_8 hop | h_11 hop | h_12 hop | h_13 hop | h_14 hop =>
    exact decodeViaDrom_eq hop (by decide) rfl
  case h_6 hop | h_10 hop =>
    rw [decodeViaDrom_eq hop (by decide) (k := .nZero) rfl, subSelector]
    split
    next hn => rw [hn]; rfl
    next hn =>
      have := toNat_nOf_ne_zero hn
      rw [dromHandler] <;> simp_all
  case h_9 hop => rw [decodeViaDrom_eq hop (by decide) rfl]; exact dromHandler_selN w
  case h_15 hop => rw [decodeViaDrom_eq hop (by decide) rfl]; exact dromHandler_selKk_of_E w
  case h_16 hop => rw [decodeViaDrom_eq hop (by decide) rfl]; exact dromHandler_selKk_of_F w
  case h_17 =>
    simp only [imp_false] at *
    have := (opOf w).isLt
    omega

/-! ### Words written out -/

/-- Settles O6: every word is closed, so the decoder is run on it. -/
theorem writtenOutWordsDecode : Obligations.WrittenOutWordsDecode := by
  unfold Obligations.WrittenOutWordsDecode
  decide

end Sys2Proof

/-! ## The step around the decoder (30_encoding.md R108, 60_exceptions.md) -/

namespace Sys2Proof.Machine

theorem step_of_decode_ok {s : State} {i : Instr} (hrun : s.run = .running) (hpc : s.pc.toNat ≤ 0xFFE)
    (hd : decode (wordOfBytes (s.mem.read s.pc.toNat) (s.mem.read (s.pc.toNat + 1))) = .ok i) : step s = exec i s := by
  simp only [step, cycle, hrun, fetch16_of_le s.mem hpc, hd]

theorem step_of_decode_error {s : State} {w : Word} {e : DecodeError} (hrun : s.run = .running) (hpc : s.pc.toNat ≤ 0xFFE)
    (hw : wordOfBytes (s.mem.read s.pc.toNat) (s.mem.read (s.pc.toNat + 1)) = w) (hd : decode w = .error e) :
    step s = .next (s.takeFault .decodeError (some w)) := by
  simp only [step, cycle, hrun, fetch16_of_le s.mem hpc, hw, hd]

/-- Settles O8: no check stands between decode and execute (`step_of_decode_ok`). -/
theorem stepRunsTheDecodedInstruction : Obligations.StepRunsTheDecodedInstruction :=
  fun _ _ => step_of_decode_ok

theorem step_of_not_running {s : State} (hrun : s.run ≠ .running) : step s = .next s := by
  rcases cycle_cases exec s with ⟨_, hc⟩ | ⟨hr, _⟩ | ⟨hr, _⟩
  · exact hc
  · exact absurd hr hrun
  · exact absurd hr hrun

theorem singleStep_of_not_running {s : State} (hrun : s.run ≠ .running) : singleStep s = (stepResponse s s, s) := by
  rw [singleStep, step_of_not_running hrun]

/-- Settles O10: such a step answers the state itself, and the response is read off Run. -/
theorem heldAndFaultedStepsChangeNothing : Obligations.HeldAndFaultedStepsChangeNothing := by
  refine ⟨fun s x hrun => ?held, fun s f hrun => ?faulted⟩
  case held | faulted =>
    have hstopped : s.run ≠ .running := by rw [hrun]; nofun
    exact ⟨step_of_not_running hstopped, by rw [singleStep_of_not_running hstopped, stepResponse, hrun]⟩

/-- Settles O9: an illegal word is rejected by the decoder, or decodes to SYS, whose meaning raises the same fault with the word it
was decoded from. -/
theorem illegalWordFaults : Obligations.IllegalWordFaults := by
  intro s w hrun hpc hw hill
  rcases illegalWord_iff.mp hill with ⟨e, hd⟩ | ⟨_, nnn, hd⟩
  · exact ⟨_, step_of_decode_error hrun hpc hw hd, rfl⟩
  · subst hw
    refine ⟨_, step_of_decode_ok hrun hpc hd, ?_⟩
    rw [← encode_of_decode hd]
    rfl

/-- Settles O27: the word is that of a well-formed SYS (`decode_encode`), and its meaning is read off `SYS_POLICY`. -/
theorem sysFaultsOrOnlyAdvances : Obligations.SysFaultsOrOnlyAdvances := by
  refine ⟨fun nnn hcls hret => ?decodes, fun nnn s => ?faults, fun p nnn s hp => ?advances⟩
  case decodes => exact decode_encode (i := .sys nnn) (by simp [Instr.wellFormed, hcls, hret])
  case faults => exact ⟨_, rfl, rfl⟩
  case advances => exact ⟨s.advance, by rw [execUnder, execSysUnder, hp], rfl⟩

end Sys2Proof.Machine

/-! ## Control transfer (40_control_flow.md) -/

namespace Sys2Proof.Machine

/-! ### CALL and RET at each depth of the stack (R140, R142) -/

theorem exec_call_of_lt (nnn : Addr12) {s : State} (h : s.sp.val < 16) :
    exec (.call nnn) s = .next { s with
      pc := zextAddr nnn, stack := s.stack.set s.sp.val (s.pc + 2#16), sp := ⟨s.sp.val + 1, by omega⟩ } := by
  rw [exec, execCall, State.push_of_lt _ h]
  rfl

theorem exec_call_full (nnn : Addr12) {s : State} (h : s.sp.val = 16) :
    exec (.call nnn) s = raise .stackOverflow (.call nnn) s := by
  rw [exec, execCall, State.push_full _ h]

theorem exec_ret_of_pos {s : State} (h : 0 < s.sp.val) :
    exec .ret s = .next { s with pc := s.stack[s.sp.val - 1], sp := ⟨s.sp.val - 1, by omega⟩ } := by
  rw [exec, execRet, State.pop_of_pos h]
  rfl

theorem exec_ret_empty {s : State} (h : s.sp.val = 0) : exec .ret s = raise .stackUnderflow .ret s := by
  rw [exec, execRet, State.pop_empty h]

/-! ### The two steps of a CALL and its RET (R146) -/

theorem step_of_wordAtPc {s : State} {w : Word} {i : Instr} (hrun : s.run = .running) (hw : s.wordAtPc = some w)
    (hd : decode w = .ok i) : step s = exec i s := by
  have hpc := State.pc_le_of_wordAtPc hw
  rw [State.wordAtPc_of_le hpc] at hw
  obtain rfl := Option.some.inj hw
  exact step_of_decode_ok hrun hpc hd

/-- Settles O25: the CALL puts PC + 2 in the slot at the old SP, so the RET it jumps to pops that slot and no entry below it is
written. -/
theorem callThenRetAdvancesByTwo : Obligations.CallThenRetAdvancesByTwo := by
  intro s nnn hrun hsp hw hret
  have hcall := (step_of_wordAtPc hrun hw (decode_encode (i := .call nnn) rfl)).trans (exec_call_of_lt nnn hsp)
  refine ⟨_, _, hcall, (step_of_wordAtPc (w := 0x00EE#16) ?running ?wordIsRet rfl).trans (exec_ret_of_pos (Nat.succ_pos _)),
    ?pc, rfl, fun j hj => ?below, rfl⟩
  case running => exact hrun
  case wordIsRet =>
    refine State.wordAtPc_eq_some ?_
    rw [toNat_zextAddr]
    exact hret
  case pc => exact Vector.getElem_set_self _
  case below => exact Vector.getElem_set_ne hsp j.isLt (by omega)

/-! ### One transfer at a time -/

/-- Settles O22: a pop answers the top entry, or none on an empty stack. -/
theorem retPopsOrUnderflows : Obligations.RetPopsOrUnderflows :=
  ⟨rfl, fun _ hpos => ⟨_, exec_ret_of_pos hpos, rfl, rfl⟩, fun _ hempty => ⟨_, exec_ret_empty hempty, rfl⟩⟩

/-- Settles O23: the target is nnn zero-extended (`toNat_zextAddr`). -/
theorem jpSetsPc : Obligations.JpSetsPc :=
  fun nnn s => ⟨decode_encode (i := .jp nnn) rfl, s.setPc (zextAddr nnn), rfl, rfl, toNat_zextAddr nnn⟩

/-- Settles O24: a push writes the slot at SP alone, or answers none on a full stack. -/
theorem callPushesOrOverflows : Obligations.CallPushesOrOverflows := by
  refine ⟨fun nnn => decode_encode (i := .call nnn) rfl, fun nnn s hroom => ?pushes, fun nnn s hfull => ?overflows⟩
  case pushes =>
    refine ⟨_, exec_call_of_lt nnn hroom, rfl, toNat_zextAddr nnn, rfl, fun j => ?_⟩
    simp only [Vector.getElem_set, eq_comm]
  case overflows => exact ⟨_, exec_call_full nnn hfull, rfl⟩

/-! ### The offset jump (R143) -/

/-- nnn plus a byte fits in 16 bits. -/
theorem toNat_jump_sum (nnn : Addr12) (b : Byte) : (BitVec.ofNat 16 (nnn.toNat + b.toNat)).toNat = nnn.toNat + b.toNat := by
  have := nnn.isLt
  have := b.isLt
  rw [BitVec.toNat_ofNat]
  omega

theorem jumpOffsetReg_vx {nnn : Addr12} {x : RegIdx} (h : x.val = nnn.toNat / 256) : jumpOffsetReg .vx nnn = x := by
  have := nnn.isLt
  apply Fin.ext
  show (nnn.extractLsb' 8 4).toNat = x.val
  rw [BitVec.extractLsb'_toNat, Nat.shiftRight_eq_div_pow]
  omega

/-- Under either policy PC alone changes, to nnn plus the offset register with no reduction. -/
theorem execJpV0Under_next (p : Config.Params) (nnn : Addr12) (s : State) :
    ∃ t, execJpV0Under p nnn s = .next t ∧ PcOnly s t t.pc ∧
      t.pc.toNat = nnn.toNat + (s.reg (jumpOffsetReg p.jumpOffsetReg nnn)).toNat :=
  ⟨_, rfl, rfl, toNat_jump_sum nnn _⟩

/-- Settles O26: the policy decides the offset register alone, and the rest is `execJpV0Under_next`. -/
theorem jpV0AddsTheOffset : Obligations.JpV0AddsTheOffset := by
  refine ⟨fun nnn => decode_encode (i := .jpV0 nnn) rfl, execJpV0Under_next Config.hardware, fun p nnn s hp => ?v0,
    fun p nnn s hp => ?vx⟩
  case v0 =>
    have h := execJpV0Under_next p nnn s
    rwa [hp] at h
  case vx =>
    obtain ⟨t, hexec, hframe, hpc⟩ := execJpV0Under_next p nnn s
    refine ⟨t, hexec, hframe, fun x hx => ?_⟩
    rw [hpc, hp, jumpOffsetReg_vx hx]

end Sys2Proof.Machine

/-! ## The skips on registers (41_skip.md) -/

namespace Sys2Proof.Machine

/-- A skip whose flag says that the condition holds changes PC alone (R109, R164). -/
theorem State.pcOnly_skipIf (s : State) {c : Bool} {p : Prop} [Decidable p] (hc : c = true ↔ p) :
    PcOnly s (s.skipIf c) (if p then s.pc + 4#16 else s.pc + 2#16) := by
  unfold PcOnly State.skipIf
  by_cases hp : p
  · simp [hp, hc.mpr hp]
  · simp [hp, mt hc.mp hp]

/-- Families 5 and 9 have no row with a nonzero low nibble (R106). -/
theorem decode_formatXYN_of_ne_zero {op n : Nibble} (hop : op = 0x5#4 ∨ op = 0x9#4) (hn : n ≠ 0#4) (x y : RegIdx) :
    decode (formatXYN op x y n) = .error (.illegal (formatXYN op x y n)) := by
  rcases hop with rfl | rfl <;> simp [decode, fields_formatXYN, hn]

/-- Settles O28: each word is its instruction's encoding (`decode_encode`), and each meaning is a skip on its comparison
(`State.pcOnly_skipIf`). -/
theorem registerSkips : Obligations.RegisterSkips := by
  refine fun x y kk s => ⟨?seByte, ?sneByte, ?seReg, ?sneReg⟩
  case seByte => exact ⟨decode_encode (i := .seByte x kk) rfl, _, rfl, s.pcOnly_skipIf beq_iff_eq⟩
  case sneByte => exact ⟨decode_encode (i := .sneByte x kk) rfl, _, rfl, s.pcOnly_skipIf bne_iff_ne⟩
  case seReg =>
    exact ⟨decode_encode (i := .seReg x y) rfl, fun n hn => decode_formatXYN_of_ne_zero (.inl rfl) hn x y, _, rfl,
      s.pcOnly_skipIf beq_iff_eq⟩
  case sneReg =>
    exact ⟨decode_encode (i := .sneReg x y) rfl, fun n hn => decode_formatXYN_of_ne_zero (.inr rfl) hn x y, _, rfl,
      s.pcOnly_skipIf bne_iff_ne⟩

end Sys2Proof.Machine

/-! ## Loads, arithmetic and logic (42_load_arith.md)

A meaning here writes one register, or a result and then the flag (R11, R203), and advances PC. The frame of each form, and what Vx and
VF then hold, is said once; a statement adds its instruction's value. -/

namespace Sys2Proof.Machine

/-! ### One register written -/

theorem State.regsOnly_setReg (s : State) (x : RegIdx) (b : Byte) : RegsOnly s (s.setReg x b).advance [x] :=
  ⟨rfl, fun _ hk => s.reg_setReg_of_ne b (List.ne_of_not_mem_cons hk)⟩

theorem State.reg_setReg_self (s : State) (x : RegIdx) (b : Byte) : (s.setReg x b).reg x = b := by
  rw [State.reg_setReg, if_pos rfl]

/-- Settles O30: Vx is written with kk. -/
theorem ldByteLoadsTheImmediate : Obligations.LdByteLoadsTheImmediate := fun x kk s =>
  ⟨decode_encode (i := .ldByte x kk) rfl, _, rfl, s.regsOnly_setReg x kk, s.reg_setReg_self x kk⟩

/-- Settles O31: Vx is written with a sum narrowed to a byte (`toNat_addByte`), and no other register. -/
theorem addByteAddsWithoutAFlag : Obligations.AddByteAddsWithoutAFlag := fun x kk s =>
  ⟨decode_encode (i := .addByte x kk) rfl, _, rfl, s.regsOnly_setReg x _,
    (congrArg BitVec.toNat (s.reg_setReg_self x _)).trans (toNat_addByte _ _)⟩

/-- Settles O32: Vx is written with Vy. -/
theorem ldRegMoves : Obligations.LdRegMoves := fun x y s =>
  ⟨decode_encode (i := .ldReg x y) rfl, _, rfl, s.regsOnly_setReg x _, s.reg_setReg_self x _⟩

/-! ### A result and then the flag (R11, R203) -/

theorem State.regsOnly_setResultFlag (s : State) (x : RegIdx) (r f : Byte) :
    RegsOnly s (s.setResultFlag x r f).advance [x, vf] :=
  ⟨rfl, fun _ hk => s.reg_setResultFlag_of_ne r f (List.ne_of_not_mem_cons hk)
    (List.ne_of_not_mem_cons (List.not_mem_of_not_mem_cons hk))⟩

/-- The flag is written last, so VF holds it also where x = F. -/
theorem State.reg_setResultFlag_vf (s : State) (x : RegIdx) (r f : Byte) : (s.setResultFlag x r f).reg vf = f := by
  rw [State.reg_setResultFlag, if_pos rfl]

theorem State.reg_setResultFlag_self (s : State) {x : RegIdx} (r f : Byte) (hx : x ≠ vf) :
    (s.setResultFlag x r f).reg x = r := by
  rw [State.reg_setResultFlag, if_neg hx, if_pos rfl]

/-- A result and a flag written and PC advanced, with the values that Vx and VF then hold as numbers. -/
theorem State.exists_next_setResultFlag (s : State) (x : RegIdx) (r f : Byte) :
    ∃ t, (.next (s.setResultFlag x r f).advance : Result) = .next t ∧ RegsOnly s t [x, vf] ∧
      (x ≠ vf → (t.reg x).toNat = r.toNat) ∧ (t.reg vf).toNat = f.toNat :=
  ⟨_, rfl, s.regsOnly_setResultFlag x r f, fun hx => congrArg BitVec.toNat (s.reg_setResultFlag_self r f hx),
    congrArg BitVec.toNat (s.reg_setResultFlag_vf x r f)⟩

/-! ### OR, AND, XOR (R183 to R185) -/

/-- Under `LOGIC_VF_RESET` a logic result is a result with the flag 0. -/
theorem State.exists_next_setLogicResult (s : State) {c : Bool} (hc : c = true) (x : RegIdx) (r : Byte) :
    ∃ t, (.next (s.setLogicResult c x r).advance : Result) = .next t ∧ RegsOnly s t [x, vf] ∧ t.reg vf = 0#8 ∧
      (x ≠ vf → t.reg x = r) := by
  subst hc
  exact ⟨_, rfl, s.regsOnly_setResultFlag x r 0#8, s.reg_setResultFlag_vf x r 0#8, s.reg_setResultFlag_self r 0#8⟩

/-- On this hardware a logic result is written to Vx alone; its bits are given by the operation's own law. -/
theorem State.exists_next_setReg_bits (s : State) (x : RegIdx) {r : Byte} {bit : Nat → Bool}
    (hr : ∀ b, r.getLsbD b = bit b) :
    ∃ t, (.next (s.setReg x r).advance : Result) = .next t ∧ RegsOnly s t [x] ∧ ∀ b, (t.reg x).getLsbD b = bit b :=
  ⟨_, rfl, s.regsOnly_setReg x r, fun b => (congrArg (BitVec.getLsbD · b) (s.reg_setReg_self x r)).trans (hr b)⟩

/-- Settles O33: on this hardware `LOGIC_VF_RESET` is false, so a plain register write remains, of a byte with the operation's bits;
under true the flag 0 is written after the result. -/
theorem logicOperations : Obligations.LogicOperations := by
  refine ⟨fun x y s => ⟨?or, ?and, ?xor⟩, fun p x y s hp => ?reset⟩
  case or =>
    exact ⟨decode_encode (i := .orReg x y) rfl, s.exists_next_setReg_bits x fun _ => BitVec.getLsbD_or⟩
  case and =>
    exact ⟨decode_encode (i := .andReg x y) rfl, s.exists_next_setReg_bits x fun _ => BitVec.getLsbD_and⟩
  case xor =>
    exact ⟨decode_encode (i := .xorReg x y) rfl, s.exists_next_setReg_bits x fun _ => BitVec.getLsbD_xor⟩
  case reset =>
    exact ⟨s.exists_next_setLogicResult hp x _, s.exists_next_setLogicResult hp x _, s.exists_next_setLogicResult hp x _⟩

/-! ### ADD, SUB, SUBN (R186, R187, R189) -/

theorem toNat_carryFlag (a b : Byte) : (carryFlag a b).toNat = if a.toNat + b.toNat > 255 then 1 else 0 := by
  simp [carryFlag]

theorem toNat_notBorrowFlag (a b : Byte) : (notBorrowFlag a b).toNat = if a.toNat ≥ b.toNat then 1 else 0 := by
  simp [notBorrowFlag]

/-- The difference modulo 256, as the spec writes it: over the integers. -/
theorem toNat_subByte_int (a b : Byte) : ((subByte a b).toNat : Int) = ((a.toNat : Int) - b.toNat) % 256 := by
  rw [toNat_subByte]
  have := b.isLt
  omega

/-- A difference and its NOT borrow written: SUB and SUBN differ in the order of the operands alone. -/
theorem State.exists_next_difference (s : State) (x : RegIdx) (a b : Byte) :
    ∃ t, (.next (s.setResultFlag x (subByte a b) (notBorrowFlag a b)).advance : Result) = .next t ∧
      RegsOnly s t [x, vf] ∧ (x ≠ vf → ((t.reg x).toNat : Int) = ((a.toNat : Int) - b.toNat) % 256) ∧
      (t.reg vf).toNat = if a.toNat ≥ b.toNat then 1 else 0 := by
  obtain ⟨t, hnext, hframe, hresult, hflag⟩ := s.exists_next_setResultFlag x (subByte a b) (notBorrowFlag a b)
  refine ⟨t, hnext, hframe, fun hx => ?_, hflag.trans (toNat_notBorrowFlag a b)⟩
  rw [hresult hx, toNat_subByte_int]

/-- Settles O34: the sum narrowed to a byte, then the carry. -/
theorem addRegAddsWithCarry : Obligations.AddRegAddsWithCarry := by
  intro x y s
  obtain ⟨t, hnext, hframe, hresult, hflag⟩ :=
    s.exists_next_setResultFlag x (addByte (s.reg x) (s.reg y)) (carryFlag (s.reg x) (s.reg y))
  exact ⟨decode_encode (i := .addReg x y) rfl, t, hnext, hframe, fun hx => (hresult hx).trans (toNat_addByte _ _),
    hflag.trans (toNat_carryFlag _ _)⟩

/-- Settles O35: the difference of Vx and Vy. -/
theorem subRegSubtractsWithNotBorrow : Obligations.SubRegSubtractsWithNotBorrow := fun x y s =>
  ⟨decode_encode (i := .subReg x y) rfl, s.exists_next_difference x (s.reg x) (s.reg y)⟩

/-- Settles O36: the difference of Vy and Vx. -/
theorem subnRegSubtractsReversed : Obligations.SubnRegSubtractsReversed := fun x y s =>
  ⟨decode_encode (i := .subnReg x y) rfl, s.exists_next_difference x (s.reg y) (s.reg x)⟩

/-! ### SHR and SHL (R188, R190) -/

theorem execShrUnder_next (p : Config.Params) (x y : RegIdx) (s : State) :
    ∃ t, execShrUnder p x y s = .next t ∧ RegsOnly s t [x, vf] ∧
      (x ≠ vf → (t.reg x).toNat = (shiftOperand p.shiftSource x y s).toNat / 2) ∧
      (t.reg vf).toNat = (shiftOperand p.shiftSource x y s).toNat % 2 := by
  rw [← toNat_shrByte, ← toNat_shrFlag]
  exact s.exists_next_setResultFlag x _ _

theorem execShlUnder_next (p : Config.Params) (x y : RegIdx) (s : State) :
    ∃ t, execShlUnder p x y s = .next t ∧ RegsOnly s t [x, vf] ∧
      (x ≠ vf → (t.reg x).toNat = (shiftOperand p.shiftSource x y s).toNat * 2 % 256) ∧
      (t.reg vf).toNat = (shiftOperand p.shiftSource x y s).toNat / 128 := by
  rw [← toNat_shlByte, ← toNat_shlFlag]
  exact s.exists_next_setResultFlag x _ _

/-- Settles O37: the policy decides the source alone, and the rest is `execShrUnder_next`. -/
theorem shrShiftsRightByOne : Obligations.ShrShiftsRightByOne := by
  refine ⟨fun x y => decode_encode (i := .shr x y) rfl, execShrUnder_next Config.hardware, fun p x y s => ?policies⟩
  obtain ⟨t, hnext, hframe, hvalues⟩ := execShrUnder_next p x y s
  refine ⟨t, hnext, hframe, fun hp => ?vx, fun hp => ?vy⟩
  case vx | vy => rwa [hp] at hvalues

/-- Settles O38: the policy decides the source alone, and the rest is `execShlUnder_next`. -/
theorem shlShiftsLeftByOne : Obligations.ShlShiftsLeftByOne := by
  refine ⟨fun x y => decode_encode (i := .shl x y) rfl, execShlUnder_next Config.hardware, fun p x y s => ?policies⟩
  obtain ⟨t, hnext, hframe, hvalues⟩ := execShlUnder_next p x y s
  refine ⟨t, hnext, hframe, fun hp => ?vx, fun hp => ?vy⟩
  case vx | vy => rwa [hp] at hvalues

/-! ### RND (R200, R201) -/

/-- Every instruction but Cxkk runs without the draw. -/
theorem execDraw_of_ne_rnd {i : Instr} (h : ∀ x kk, i ≠ .rnd x kk) (p : Config.Params) (rnd : Byte) (s : State) :
    execDraw p rnd i s = execUnder p i s := by
  unfold execDraw
  split
  next x kk => exact absurd rfl (h x kk)
  next => rfl

/-- Settles O39: Vx is written with the draw and the mask; on the machine the counter has been advanced before. -/
theorem rndMasksTheDraw : Obligations.RndMasksTheDraw := by
  refine ⟨fun x kk => decode_encode (i := .rnd x kk) rfl, fun p rnd x kk s => ?givenDraw, fun p rnd rnd' i s hi => ?otherInstr,
    fun x kk s => ?machine⟩
  case givenDraw => exact ⟨_, rfl, s.regsOnly_setReg x _, s.reg_setReg_self x _⟩
  case otherInstr => rw [execDraw_of_ne_rnd hi, execDraw_of_ne_rnd hi]
  case machine =>
    exact ⟨_, rfl, rfl, fun k hk => s.takeDraw.reg_setReg_of_ne _ hk, s.takeDraw.reg_setReg_self x _⟩

end Sys2Proof.Machine

/-! ## The index register and memory transfer (43_index_memory.md) -/

namespace Sys2Proof.Machine

/-! ### I alone written (R220 to R222) -/

/-- A write of I and the default advance, with the value that I then holds as a number. -/
theorem State.exists_next_setI (s : State) {w : Word} {n : Nat} (hw : w.toNat = n) :
    ∃ t, (.next (s.setI w).advance : Result) = .next t ∧ t = { s with i := t.i, pc := s.pc + 2#16 } ∧ t.i.toNat = n :=
  ⟨_, rfl, rfl, hw⟩

theorem toNat_glyphAddr (d : Fin 16) :
    (BitVec.ofNat 16 (Config.fontBase + 5 * d.val)).toNat = Config.fontBase + 5 * d.val := by
  rw [BitVec.toNat_ofNat, Config.fontBase]
  omega

/-- Under either policy a digit that the nibble rule accepts sets I to its glyph's address. -/
theorem execLdFVxUnder_of_ok {p : Config.Params} {x : RegIdx} {s : State} {d : Fin 16}
    (h : nibbleOperand p.nibblePolicy (s.reg x) = .ok d) :
    ∃ t, execLdFVxUnder p x s = .next t ∧ t = { s with i := t.i, pc := s.pc + 2#16 } ∧
      t.i.toNat = Config.fontBase + 5 * d.val := by
  rw [execLdFVxUnder, h]
  exact s.exists_next_setI (toNat_glyphAddr d)

theorem exec_ldFVx_of_gt {x : RegIdx} {s : State} (h : 0xF < (s.reg x).toNat) :
    exec (.ldFVx x) s = raise (.operandOutOfRange (s.reg x)) (.ldFVx x) s := by
  have hoperand : nibbleOperand Config.hardware.nibblePolicy (s.reg x) = .error (s.reg x) := (nibbleOperand_of_gt h).1
  rw [exec, execLdFVx, execLdFVxUnder, hoperand]

/-- The mask policy takes the digit modulo 16, whether in range or not (R223). -/
theorem nibbleOperand_mask (b : Byte) : nibbleOperand .mask b = .ok (Fin.ofNat 16 b.toNat) := by
  rw [nibbleOperand, ite_self]

/-- Settles O40: I is written with nnn zero-extended (`toNat_zextAddr`). -/
theorem ldILoadsTheAddress : Obligations.LdILoadsTheAddress := fun nnn s =>
  ⟨decode_encode (i := .ldI nnn) rfl, s.exists_next_setI (toNat_zextAddr nnn)⟩

/-- Settles O41: I is written with a sum reduced to 16 bits, which the word holds exactly. -/
theorem addIAddsInSixteenBits : Obligations.AddIAddsInSixteenBits := fun x s =>
  ⟨decode_encode (i := .addIVx x) rfl, s.exists_next_setI ((BitVec.toNat_ofNat _ 16).trans (Nat.mod_mod _ _))⟩

/-- Settles O42: the nibble rule answers the digit itself, the fault, or the digit modulo 16, and the rest is
`execLdFVxUnder_of_ok`. -/
theorem ldFPointsAtTheGlyph : Obligations.LdFPointsAtTheGlyph := by
  refine ⟨fun x => decode_encode (i := .ldFVx x) rfl, fun x s hle => ?inRange, fun x s hgt => ?faults, fun p x s hp => ?masks⟩
  case inRange => exact execLdFVxUnder_of_ok (nibbleOperand_of_le hle)
  case faults => exact ⟨_, exec_ldFVx_of_gt hgt, rfl⟩
  case masks => exact execLdFVxUnder_of_ok (d := Fin.ofNat 16 _) (by rw [hp, nibbleOperand_mask])

/-! ### Checked accesses whose range leaves memory, and reads inside it (R74) -/

theorem memWrite_of_gt (m : Memory) {a : Nat} {vs : List Byte} (hne : vs.length ≠ 0) (h : 0x1000 < a + vs.length) :
    memWrite m a vs = .error (max a 0x1000) := by
  rw [memWrite, checkRange_error hne h]

theorem memRead_of_gt (m : Memory) {a n : Nat} (hne : n ≠ 0) (h : 0x1000 < a + n) :
    memRead m a n = .error (max a 0x1000) := by
  rw [memRead, checkRange_error hne h]

theorem memRead_of_le (m : Memory) {a n : Nat} (h : a + n ≤ 0x1000) : memRead m a n = .ok (m.readList a n) := by
  rw [memRead, checkRange_ok (.inr h)]

theorem Memory.getD_readList (m : Memory) (a : Nat) {n k : Nat} (h : k < n) (d : Byte) :
    (m.readList a n).getD k d = m.read (a + k) := by
  rw [Memory.readList_eq, List.getD_eq_getElem _ _ (by simpa using h)]
  simp

/-! ### The decimal digits (R224) -/

theorem exec_ldBVx_of_le {x : RegIdx} {s : State} (h : s.i.toNat + 2 ≤ 0xFFF) :
    exec (.ldBVx x) s = .next (s.setMem (s.mem.writeList s.i.toNat (bcdDigits (s.reg x)))).advance := by
  rw [exec, execLdBVx, memWrite_of_le s.mem (by rw [length_bcdDigits]; omega)]

theorem exec_ldBVx_of_gt {x : RegIdx} {s : State} (h : 0xFFF < s.i.toNat + 2) :
    exec (.ldBVx x) s = raise (.memoryOutOfRange (max s.i.toNat 0x1000)) (.ldBVx x) s := by
  rw [exec, execLdBVx, memWrite_of_gt s.mem (by simp) (by rw [length_bcdDigits]; omega)]

/-- A decimal digit of a byte fits a byte. -/
theorem toNat_ofNat_digit {d : Nat} (h : d < 10) : (BitVec.ofNat 8 d).toNat = d := by
  rw [BitVec.toNat_ofNat]
  omega

/-- Settles O43: the digits are a written list of three bytes, each digit being below 10, and a write past the end of memory is
refused whole. -/
theorem ldBStoresTheDigits : Obligations.LdBStoresTheDigits := by
  refine ⟨fun x => decode_encode (i := .ldBVx x) rfl, fun x s hwf hle => ?stores, fun x s hgt => ?faults⟩
  case stores =>
    have hfits : s.i.toNat + (bcdDigits (s.reg x)).length ≤ 0x1000 := by rw [length_bcdDigits]; omega
    have hread := Memory.read_writeList_add hwf hfits
    have hbyte := (s.reg x).isLt
    refine ⟨_, exec_ldBVx_of_le hle, rfl, ?hundreds, ?tens, ?units, fun a ha => ?others⟩
    case hundreds => exact (congrArg BitVec.toNat (hread 0)).trans (toNat_ofNat_digit (by omega))
    case tens => exact (congrArg BitVec.toNat (hread 1)).trans (toNat_ofNat_digit (by omega))
    case units => exact (congrArg BitVec.toNat (hread 2)).trans (toNat_ofNat_digit (by omega))
    case others => exact read_of_memWrite hwf (memWrite_of_le s.mem hfits) (by rw [length_bcdDigits]; omega)
  case faults => exact ⟨_, exec_ldBVx_of_gt hgt, rfl⟩

/-! ### The register dump and the register load (R225, R226) -/

/-- I + x + 1 stays a word where the transfer was inside memory. -/
theorem toNat_indexAfter {x : RegIdx} {s : State} (h : s.i.toNat + x.val ≤ 0xFFF) (increment : Bool) :
    (indexAfter increment x s).toNat = if increment = true then s.i.toNat + x.val + 1 else s.i.toNat := by
  cases increment
  case false => rfl
  case true => exact Nat.mod_eq_of_lt (by omega)

/-- Under either value of `MEM_I_INCREMENT` the dump stores the same bytes; the parameter decides I alone. -/
theorem execLdMemVxUnder_of_le (p : Config.Params) {x : RegIdx} {s : State} (h : s.i.toNat + x.val ≤ 0xFFF) :
    execLdMemVxUnder p x s = .next ((s.setMem (s.mem.writeList s.i.toNat (s.regsUpTo x))).setI
      (indexAfter p.memIIncrement x s)).advance := by
  rw [execLdMemVxUnder, memWrite_of_le s.mem (State.add_length_regsUpTo_le h)]

theorem exec_ldMemVx_of_gt {x : RegIdx} {s : State} (h : 0xFFF < s.i.toNat + x.val) :
    exec (.ldMemVx x) s = raise (.memoryOutOfRange (max s.i.toNat 0x1000)) (.ldMemVx x) s := by
  rw [exec, execLdMemVx, execLdMemVxUnder, memWrite_of_gt s.mem (by simp) (by rw [State.length_regsUpTo]; omega)]

/-- Under either value of `MEM_I_INCREMENT` the load reads the same bytes; the parameter decides I alone. -/
theorem execLdVxMemUnder_of_le (p : Config.Params) {x : RegIdx} {s : State} (h : s.i.toNat + x.val ≤ 0xFFF) :
    execLdVxMemUnder p x s = .next ((s.setRegs (s.mem.readList s.i.toNat (x.val + 1))).setI
      (indexAfter p.memIIncrement x s)).advance := by
  rw [execLdVxMemUnder, memRead_of_le s.mem (by omega)]

theorem exec_ldVxMem_of_le {x : RegIdx} {s : State} (h : s.i.toNat + x.val ≤ 0xFFF) :
    exec (.ldVxMem x) s = .next (s.setRegs (s.mem.readList s.i.toNat (x.val + 1))).advance :=
  execLdVxMemUnder_of_le Config.hardware h

theorem exec_ldVxMem_of_gt {x : RegIdx} {s : State} (h : 0xFFF < s.i.toNat + x.val) :
    exec (.ldVxMem x) s = raise (.memoryOutOfRange (max s.i.toNat 0x1000)) (.ldVxMem x) s := by
  rw [exec, execLdVxMem, execLdVxMemUnder, memRead_of_gt s.mem (Nat.succ_ne_zero _) (by omega)]

/-- What each register holds after V0 to Vx are loaded from a list of bytes read from memory. -/
theorem State.reg_setRegs_readList (s : State) (m : Memory) (a : Nat) (x k : RegIdx) :
    (s.setRegs (m.readList a (x.val + 1))).reg k = if k ≤ x then m.read (a + k.val) else s.reg k := by
  split
  next hle => rw [State.reg_setRegs, Memory.getD_readList m a (Nat.lt_succ_of_le hle)]
  next hgt => exact s.reg_setRegs_of_length_le ((m.length_readList a _).trans_le (not_le.mp hgt))

/-- Settles O44: the dump is a written list of x + 1 registers, refused whole past the end of memory; the parameter decides I
alone. -/
theorem ldMemDumpsRegisters : Obligations.LdMemDumpsRegisters := by
  refine ⟨fun x => decode_encode (i := .ldMemVx x) rfl, fun x s hwf hle => ?stores, fun x s hgt => ?faults,
    fun p x s t hexec hle => ?policies⟩
  case stores =>
    have hwrite := memWrite_of_le s.mem (State.add_length_regsUpTo_le hle)
    refine ⟨_, exec_ldMemVx_of_le hle, rfl, fun k hk => State.read_writeList_regsUpTo hwf hle hk, fun a ha => ?others⟩
    case others => exact read_of_memWrite hwf hwrite (by rw [State.length_regsUpTo]; omega)
  case faults => exact ⟨_, exec_ldMemVx_of_gt hgt, rfl⟩
  case policies =>
    rw [exec_ldMemVx_of_le hle] at hexec
    cases hexec
    exact ⟨_, execLdMemVxUnder_of_le p hle, rfl, toNat_indexAfter hle p.memIIncrement⟩

/-- Settles O45: the load writes the x + 1 bytes read at I to V0 on, and nothing past the end of memory; the parameter decides I
alone. -/
theorem ldVxMemLoadsRegisters : Obligations.LdVxMemLoadsRegisters := by
  refine ⟨fun x => decode_encode (i := .ldVxMem x) rfl, fun x s hle => ?loads, fun x s hgt => ?faults,
    fun p x s t hexec hle => ?policies⟩
  case loads => exact ⟨_, exec_ldVxMem_of_le hle, rfl, s.reg_setRegs_readList s.mem s.i.toNat x⟩
  case faults => exact ⟨_, exec_ldVxMem_of_gt hgt, rfl⟩
  case policies =>
    rw [exec_ldVxMem_of_le hle] at hexec
    cases hexec
    exact ⟨_, execLdVxMemUnder_of_le p hle, rfl, toNat_indexAfter hle p.memIIncrement⟩

/-- Settles O46: the dump leaves I, so the load reads the range just stored, in which V[k] stands at I + k. -/
theorem dumpThenLoadRestoresRegisters : Obligations.DumpThenLoadRestoresRegisters := by
  intro x s t v hwf hle hdump
  rw [exec_ldMemVx_of_le hle] at hdump
  cases hdump
  refine ⟨_, exec_ldVxMem_of_le hle, fun k hk => ?_⟩
  calc
    _ = (s.mem.writeList s.i.toNat (s.regsUpTo x)).read (s.i.toNat + k.val) :=
      (State.reg_setRegs_readList _ _ _ x k).trans (if_pos hk)
    _ = s.reg k := State.read_writeList_regsUpTo hwf hle hk

end Sys2Proof.Machine

/-! ## The display (44_display.md)

DRW is one blit of the rows read at I and one write of VF; `blit_spec` gives the blit in closed form. What a state after a draw holds is
said once, and drawing twice is those facts used twice. -/

namespace Sys2Proof.Machine

/-! ### CLS (R251) -/

/-- Settles O47: the display is replaced by the clear one (`pixel_clearDisplay`). -/
theorem clsClearsEveryPixel : Obligations.ClsClearsEveryPixel :=
  ⟨decode_encode (i := .cls) rfl, fun _ => ⟨_, rfl, rfl, pixel_clearDisplay⟩⟩

/-! ### A flag as a byte -/

theorem flagOf_eq_one_iff (c : Bool) : flagOf c = 1#8 ↔ c = true := by cases c <;> decide

theorem flagOf_eq_one_or_zero (c : Bool) : flagOf c = 1#8 ∨ flagOf c = 0#8 := by cases c <;> decide

/-! ### The draw of a sprite that is read from memory (R250) -/

section
variable (s : State) (x y : RegIdx) (n : Nibble)

/-- Whether the sprite of n rows at I, drawn at (Vx, Vy), covers a pixel. -/
def State.Covers (px : Fin 64) (py : Fin 32) : Prop :=
  SpriteCovers (s.mem.readList s.i.toNat n.toNat) (s.reg x).toNat (s.reg y).toNat px py

/-- The sprite of n rows at I drawn at (Vx, Vy) on the display. -/
def State.blit : Blit :=
  blitRows (s.reg x).toNat (s.reg y).toNat 0 (s.mem.readList s.i.toNat n.toNat) ⟨s.disp, false⟩

/-- The state after a DRW that took no fault. -/
def State.drawn : State := ((s.setDisp (s.blit x y n).disp).setReg vf (flagOf (s.blit x y n).coll)).advance

/-- A sprite has at most 15 rows, so `blit_spec` applies to every draw. -/
theorem State.length_sprite_le : (s.mem.readList s.i.toNat n.toNat).length ≤ 32 := by
  rw [Memory.length_readList]
  omega

theorem State.pixel_drawn_iff (px : Fin 64) (py : Fin 32) :
    (s.drawn x y n).disp.pixel px py = true ↔ ¬(s.disp.pixel px py = true ↔ s.Covers x y n px py) :=
  (blit_spec _ _ _ (s.length_sprite_le n) s.disp).1 px py

theorem State.reg_drawn_of_ne {k : RegIdx} (hk : k ≠ vf) : (s.drawn x y n).reg k = s.reg k :=
  (s.setDisp _).reg_setReg_of_ne _ hk

theorem State.reg_drawn_vf : (s.drawn x y n).reg vf = flagOf (s.blit x y n).coll :=
  (s.setDisp _).reg_setReg_self vf _

theorem State.reg_drawn_vf_eq_one_iff :
    (s.drawn x y n).reg vf = 1#8 ↔ ∃ px py, s.disp.pixel px py = true ∧ s.Covers x y n px py := by
  rw [s.reg_drawn_vf, flagOf_eq_one_iff]
  exact (blit_spec _ _ _ (s.length_sprite_le n) s.disp).2

variable {s x y n}

/-- DRW with no row, or with its rows inside memory, takes no fault. -/
theorem exec_drw_of_fits (h : n = 0#4 ∨ s.i.toNat + n.toNat - 1 ≤ 0xFFF) :
    exec (.drw x y n) s = .next (s.drawn x y n) := by
  have hrange : n.toNat = 0 ∨ s.i.toNat + n.toNat ≤ 0x1000 := h.imp (congrArg BitVec.toNat) (by omega)
  rw [exec, execDrw, memRead, checkRange_ok hrange]
  rfl

theorem exec_drw_of_gt (h0 : n ≠ 0#4) (h : 0xFFF < s.i.toNat + n.toNat - 1) :
    exec (.drw x y n) s = raise (.memoryOutOfRange (max s.i.toNat 0x1000)) (.drw x y n) s := by
  have hrows : n.toNat ≠ 0 := fun h' => h0 (BitVec.eq_of_toNat_eq h')
  rw [exec, execDrw, memRead_of_gt s.mem hrows (by omega)]

end

/-- Settles O48: inside memory the state after the draw is `drawn`; past its end the read of the rows is refused whole. -/
theorem drwInvertsTheCoveredPixels : Obligations.DrwInvertsTheCoveredPixels := by
  refine ⟨fun x y n => decode_encode (i := .drw x y n) rfl, fun x y n s hfits => ?draws, fun x y n s h0 hgt => ?faults⟩
  case draws =>
    refine ⟨_, exec_drw_of_fits hfits, rfl, fun k => s.reg_drawn_of_ne x y n, s.pixel_drawn_iff x y n, ?flag,
      s.reg_drawn_vf_eq_one_iff x y n⟩
    case flag =>
      rw [s.reg_drawn_vf]
      exact flagOf_eq_one_or_zero _
  case faults => exact ⟨_, exec_drw_of_gt h0 hgt, rfl⟩

/-! ### Two equal draws (R253, log entry 6) -/

section
variable (s : State) {x y : RegIdx} (n : Nibble) (hx : x ≠ vf) (hy : y ≠ vf)
include hx hy

/-- A draw leaves I and memory, and the coordinates where neither is in VF, so the next draw covers the same pixels. -/
theorem State.covers_drawn : (s.drawn x y n).Covers x y n = s.Covers x y n := by
  unfold State.Covers
  rw [s.reg_drawn_of_ne x y n hx, s.reg_drawn_of_ne x y n hy]
  rfl

/-- A covered pixel is inverted twice, another one not at all. -/
theorem State.disp_drawn_drawn : ((s.drawn x y n).drawn x y n).disp = s.disp := by
  refine Display.ext_pixel fun px py => Bool.eq_iff_iff.mpr ?_
  rw [State.pixel_drawn_iff, s.covers_drawn n hx hy, State.pixel_drawn_iff]
  by_cases hcov : s.Covers x y n px py <;> simp [hcov]

/-- The second draw collides with a pixel that the first one set, and the first one sets a covered pixel that was clear. -/
theorem State.reg_drawn_drawn_vf_eq_one_iff : ((s.drawn x y n).drawn x y n).reg vf = 1#8 ↔
    ∃ px py, s.disp.pixel px py = false ∧ s.Covers x y n px py := by
  rw [State.reg_drawn_vf_eq_one_iff, s.covers_drawn n hx hy]
  refine exists₂_congr fun px py => and_congr_left fun hcov => ?_
  simp [State.pixel_drawn_iff, hcov]

end

/-- Settles O49: the first draw leaves I, so both draws take no fault and the second starts from `drawn`. -/
theorem drawingTwiceRestoresTheDisplay : Obligations.DrawingTwiceRestoresTheDisplay := by
  intro x y n s t u hx hy hfits hfirst hsecond
  rw [exec_drw_of_fits hfits] at hfirst
  cases hfirst
  have hfits' : n = 0#4 ∨ (s.drawn x y n).i.toNat + n.toNat - 1 ≤ 0xFFF := hfits
  rw [exec_drw_of_fits hfits'] at hsecond
  cases hsecond
  exact ⟨s.disp_drawn_drawn n hx hy, s.reg_drawn_drawn_vf_eq_one_iff n hx hy⟩

end Sys2Proof.Machine

/-! ## The keypad and the timers (45_keypad_timers.md)

The nibble rule of the key skips is that of LD F (R223). Each host event is given in the form it takes in each case of the run state
and the latch. -/

namespace Sys2Proof.Machine

/-! ### The key skips (R270, R271) -/

/-- The nibble rule accepts the number of a key under either policy (R223). -/
theorem nibbleOperand_key {p : Config.NibblePolicy} {b : Byte} {k : KeyIdx} (h : b.toNat = k.val) :
    nibbleOperand p b = .ok k := by
  rw [nibbleOperand_of_le (h.trans_le (Nat.le_of_lt_succ k.isLt))]
  exact congrArg Except.ok (Fin.ext h)

/-- The mask policy names the key whose number is the operand modulo 16. -/
theorem nibbleOperand_mask_key {b : Byte} {k : KeyIdx} (h : k.val = b.toNat % 16) : nibbleOperand .mask b = .ok k := by
  rw [nibbleOperand_mask]
  exact congrArg Except.ok (Fin.ext h.symm)

section
variable {p : Config.Params} {x : RegIdx} {s : State} {k : KeyIdx} (h : nibbleOperand p.nibblePolicy (s.reg x) = .ok k)
include h

/-- Under either policy SKP reads the latch bit of the key that the nibble rule accepts. -/
theorem execSkpUnder_of_ok :
    ∃ t, execSkpUnder p x s = .next t ∧ PcOnly s t (if s.key[k.val] = true then s.pc + 4#16 else s.pc + 2#16) := by
  rw [execSkpUnder, h]
  exact ⟨_, rfl, s.pcOnly_skipIf Iff.rfl⟩

/-- Under either policy SKNP reads the same bit and skips where it is clear. -/
theorem execSknpUnder_of_ok :
    ∃ t, execSknpUnder p x s = .next t ∧ PcOnly s t (if s.key[k.val] = false then s.pc + 4#16 else s.pc + 2#16) := by
  rw [execSknpUnder, h]
  exact ⟨_, rfl, s.pcOnly_skipIf (iff_of_eq (Bool.not_eq_true' _))⟩

end

theorem exec_skp_of_gt {x : RegIdx} {s : State} (h : 0xF < (s.reg x).toNat) :
    exec (.skp x) s = raise (.operandOutOfRange (s.reg x)) (.skp x) s := by
  have hoperand : nibbleOperand Config.hardware.nibblePolicy (s.reg x) = .error (s.reg x) := (nibbleOperand_of_gt h).1
  rw [exec, execSkp, execSkpUnder, hoperand]

theorem exec_sknp_of_gt {x : RegIdx} {s : State} (h : 0xF < (s.reg x).toNat) :
    exec (.sknp x) s = raise (.operandOutOfRange (s.reg x)) (.sknp x) s := by
  have hoperand : nibbleOperand Config.hardware.nibblePolicy (s.reg x) = .error (s.reg x) := (nibbleOperand_of_gt h).1
  rw [exec, execSknp, execSknpUnder, hoperand]

/-- Settles O29: the nibble rule answers the key in Vx, the fault, or the key modulo 16, and the rest is `execSkpUnder_of_ok` and
`execSknpUnder_of_ok`. -/
theorem keySkips : Obligations.KeySkips := by
  refine ⟨fun x => ?decodes, fun x s k hk => ?inRange, fun x s hgt => ?faults, fun p x s k hp hk => ?masks⟩
  case decodes => exact ⟨decode_encode (i := .skp x) rfl, decode_encode (i := .sknp x) rfl⟩
  case inRange => exact ⟨execSkpUnder_of_ok (nibbleOperand_key hk), execSknpUnder_of_ok (nibbleOperand_key hk)⟩
  case faults => exact ⟨⟨_, exec_skp_of_gt hgt, rfl⟩, ⟨_, exec_sknp_of_gt hgt, rfl⟩⟩
  case masks =>
    have hoperand : nibbleOperand p.nibblePolicy (s.reg x) = .ok k := by rw [hp, nibbleOperand_mask_key hk]
    exact ⟨execSkpUnder_of_ok hoperand, execSknpUnder_of_ok hoperand⟩

/-! ### The timers (R272 to R274, R320, R322) -/

theorem soundActive_iff (s : State) : soundActive s = true ↔ s.st ≠ 0#8 := bne_iff_ne

/-- The decrement of a timer stops at 0, as subtraction of naturals does (R320). -/
@[simp] theorem toNat_tickTimer (b : Byte) : (tickTimer b).toNat = b.toNat - 1 := by
  unfold tickTimer
  split
  · rw [BitVec.toNat_ofNat, Nat.mod_eq_of_lt (Nat.lt_of_le_of_lt (Nat.sub_le _ _) b.isLt)]
  · omega

/-- Settles O50: Fx07 is a register write; Fx15 and Fx18 write one timer, and ST alone gives the sound signal
(`soundActive_iff`). -/
theorem timerTransfers : Obligations.TimerTransfers := fun x s =>
  ⟨⟨decode_encode (i := .ldVxDt x) rfl, _, rfl, s.regsOnly_setReg x s.dt, s.reg_setReg_self x s.dt⟩,
    ⟨decode_encode (i := .ldDtVx x) rfl, _, rfl, rfl⟩,
    ⟨decode_encode (i := .ldStVx x) rfl, _, rfl, rfl, soundActive_iff _⟩⟩

/-! ### The keypad latch and the key-down (R325, R277) -/

theorem State.getElem_key_setKey (s : State) (k j : KeyIdx) (b : Bool) :
    (s.setKey k b).key[j.val] = if j = k then b else s.key[j.val] := by
  simp only [State.setKey_key, Vector.getElem_set, Fin.ext_iff, eq_comm]

theorem State.setKey_of_key_eq {s : State} {k : KeyIdx} {b : Bool} (h : s.key[k.val] = b) : s.setKey k b = s := by
  subst h
  rw [State.setKey, Vector.set_getElem_self]

/-- A key-down that ends no wait only sets the latch. -/
theorem keyDown_eq_setKey {k : KeyIdx} {s : State} (h : ∀ x, s.run = .awaitingKey x → s.key[k.val] = true) :
    keyDown k s = s.setKey k true := by
  unfold keyDown
  split
  case h_1 x hrun => rw [if_pos (h x hrun)]
  case h_2 => rfl
  case h_3 => rfl

/-- A key-down of a key that is up ends the wait. -/
theorem keyDown_ends_wait {k : KeyIdx} {s : State} {x : RegIdx} (hrun : s.run = .awaitingKey x)
    (hup : s.key[k.val] = false) :
    keyDown k s = (((s.setKey k true).setReg x (BitVec.ofNat 8 k.val)).advance).setRun .running := by
  simp [keyDown, hrun, hup]

theorem toNat_keyByte (k : KeyIdx) : (BitVec.ofNat 8 k.val).toNat = k.val := by
  rw [BitVec.toNat_ofNat]
  omega

/-- Settles O51: the wait writes Run alone, and the key-down that ends it writes the four parts that `keyDown_ends_wait` names. -/
theorem keyWaitStartsAndCompletes : Obligations.KeyWaitStartsAndCompletes := by
  refine ⟨fun x => decode_encode (i := .ldVxK x) rfl, fun _ _ => rfl, fun x s k hrun hup => ?_⟩
  rw [keyDown_ends_wait hrun hup]
  refine ⟨rfl, fun j => ?registers, fun j => s.getElem_key_setKey k j true⟩
  case registers =>
    rw [State.reg_setRun, State.reg_advance, State.reg_setReg, State.reg_setKey, apply_ite BitVec.toNat, toNat_keyByte]

/-! ### What keeps a wait and what ends it (R276) -/

/-- A ROM that fits is copied over the state that `Reset()` gives (R351). -/
theorem load_of_le {rom : List Byte} (h : rom.length ≤ 3584) (s : State) :
    load rom s = (.ok, (s.resetCore Config.hardware).setMem
      ((s.resetCore Config.hardware).mem.writeList Config.programOrigin rom)) :=
  if_neg (Nat.not_lt.mpr h)

/-- Settles O52: a step in the wait is held (`heldAndFaultedStepsChangeNothing`), no other event but a load writes Run, and an accepted
load resets it. -/
theorem onlyAKeyPressOrALoadEndsTheWait : Obligations.OnlyAKeyPressOrALoadEndsTheWait := by
  intro s x hrun
  obtain ⟨hstep, hsingle⟩ := heldAndFaultedStepsChangeNothing.1 s x hrun
  refine ⟨hstep, hsingle, ⟨hrun, toNat_tickTimer s.dt, toNat_tickTimer s.st⟩, fun k => ?keyUp, fun k hheld => ?heldKey,
    fun rom hfits => ?load⟩
  case keyUp => exact ⟨hrun, Vector.getElem_set_self _⟩
  case heldKey => rw [keyDown_eq_setKey fun _ _ => hheld, State.setKey_of_key_eq hheld]
  case load => rw [load_of_le hfits]; rfl

end Sys2Proof.Machine

/-! ## Faults (60_exceptions.md R300 to R303)

An instruction that faults raises the one trap that its kind and the state name: `FaultsOnlyWith` gives the trap before the
instruction runs, so the record can be read off it. -/

namespace Sys2Proof.Machine

/-- From s the instruction raises the trap c, or it answers a next state and leaves Run. -/
def FaultsOnlyWith (i : Instr) (c : Trap) (s : State) : Prop :=
  exec i s = raise c i s ∨ ∃ t, exec i s = .next t ∧ t.run = s.run

/-- An instruction that accesses memory faults with the lowest address out of range of an access from I on (R74). -/
theorem faultsOnlyWith_memoryOutOfRange {i : Instr} (hkind : i.faultKind = some .memoryOutOfRange) (s : State) :
    FaultsOnlyWith i (.memoryOutOfRange (max s.i.toNat 0x1000)) s := by
  cases i
  case drw x y n =>
    by_cases hfits : n = 0#4 ∨ s.i.toNat + n.toNat - 1 ≤ 0xFFF
    · exact .inr ⟨_, exec_drw_of_fits hfits, rfl⟩
    · rw [not_or, not_le] at hfits
      exact .inl (exec_drw_of_gt hfits.1 hfits.2)
  case ldBVx x =>
    rcases le_or_gt (s.i.toNat + 2) 0xFFF with hle | hgt
    · exact .inr ⟨_, exec_ldBVx_of_le hle, rfl⟩
    · exact .inl (exec_ldBVx_of_gt hgt)
  case ldMemVx x =>
    rcases le_or_gt (s.i.toNat + x.val) 0xFFF with hle | hgt
    · exact .inr ⟨_, exec_ldMemVx_of_le hle, rfl⟩
    · exact .inl (exec_ldMemVx_of_gt hgt)
  case ldVxMem x =>
    rcases le_or_gt (s.i.toNat + x.val) 0xFFF with hle | hgt
    · exact .inr ⟨_, exec_ldVxMem_of_le hle, rfl⟩
    · exact .inl (exec_ldVxMem_of_gt hgt)
  all_goals cases hkind

theorem xOf_formatXKK (op : Nibble) (x : RegIdx) (kk : Byte) : xOf (formatXKK op x kk) = x := (fields_formatXKK op x kk).2.1

/-- The nibble rule of this hardware accepts the value of Vx or refuses it (R223). -/
theorem faultsOnlyWith_of_nibbleOperand {i : Instr} {x : RegIdx} {s : State} (hx : xOf (encode i) = x)
    (hok : ∀ d, nibbleOperand Config.hardware.nibblePolicy (s.reg x) = .ok d → ∃ t, exec i s = .next t ∧ t.run = s.run)
    (hgt : 0xF < (s.reg x).toNat → exec i s = raise (.operandOutOfRange (s.reg x)) i s) :
    FaultsOnlyWith i (.operandOutOfRange (s.reg (xOf (encode i)))) s := by
  rw [hx]
  rcases le_or_gt (s.reg x).toNat 0xF with hle | h
  · exact .inr (hok _ (nibbleOperand_of_le hle))
  · exact .inl (hgt h)

/-- An instruction with a nibble operand faults with the value of the register that its word names as x (R223). -/
theorem faultsOnlyWith_operandOutOfRange {i : Instr} (hkind : i.faultKind = some .operandOutOfRange) (s : State) :
    FaultsOnlyWith i (.operandOutOfRange (s.reg (xOf (encode i)))) s := by
  cases i
  case skp x =>
    refine faultsOnlyWith_of_nibbleOperand (xOf_formatXKK 0xE#4 x 0x9E#8) (fun d hd => ?_) exec_skp_of_gt
    obtain ⟨t, hexec, ht⟩ := execSkpUnder_of_ok hd
    exact ⟨t, hexec, by rw [ht]⟩
  case sknp x =>
    refine faultsOnlyWith_of_nibbleOperand (xOf_formatXKK 0xE#4 x 0xA1#8) (fun d hd => ?_) exec_sknp_of_gt
    obtain ⟨t, hexec, ht⟩ := execSknpUnder_of_ok hd
    exact ⟨t, hexec, by rw [ht]⟩
  case ldFVx x =>
    refine faultsOnlyWith_of_nibbleOperand (xOf_formatXKK 0xF#4 x 0x29#8) (fun d hd => ?_) exec_ldFVx_of_gt
    obtain ⟨t, hexec, ht, -⟩ := execLdFVxUnder_of_ok hd
    exact ⟨t, hexec, by rw [ht]⟩
  case drw =>
    rw [Instr.faultKind] at hkind
    split at hkind <;> cases hkind
  all_goals cases hkind

section
variable {i : Instr} {s t : State} {f : FaultRecord} (hrun : s.run = .running)
include hrun

section
variable (hexec : exec i s = .next t) (hf : t.run = .faulted f)
include hexec hf

theorem FaultsOnlyWith.record_eq {c : Trap} (h : FaultsOnlyWith i c s) : f = c.record s.pc (some (encode i)) := by
  rcases h with hraise | ⟨u, hnext, hkeeps⟩
  · rw [hraise] at hexec
    cases hexec
    cases hf
    rfl
  · rw [hnext] at hexec
    cases hexec
    rw [hkeeps, hrun] at hf
    cases hf

/-- The kind of a fault at execute is the one that the instruction's rule lists (R301). -/
theorem faultKind_of_exec_fault : i.faultKind = some f.kind := by
  obtain ⟨c, -, rfl, hexplains⟩ := exec_fault hrun hexec hf
  cases c with
  | decodeError =>
    obtain ⟨nnn, rfl⟩ := hexplains
    rfl
  | stackUnderflow =>
    obtain ⟨rfl, -⟩ := hexplains
    rfl
  | stackOverflow =>
    obtain ⟨⟨nnn, rfl⟩, -⟩ := hexplains
    rfl
  | memoryOutOfRange a => exact hexplains.1
  | operandOutOfRange v => exact hexplains.1

theorem addr_of_exec_fault (hkind : f.kind = .memoryOutOfRange) : f.addr = some (max s.i.toNat 0x1000) := by
  have hlisted := faultKind_of_exec_fault hrun hexec hf
  rw [hkind] at hlisted
  exact congrArg FaultRecord.addr ((faultsOnlyWith_memoryOutOfRange hlisted s).record_eq hrun hexec hf)

theorem value_of_exec_fault (hkind : f.kind = .operandOutOfRange) : f.value = some (s.reg (xOf (encode i))) := by
  have hlisted := faultKind_of_exec_fault hrun hexec hf
  rw [hkind] at hlisted
  exact congrArg FaultRecord.value ((faultsOnlyWith_operandOutOfRange hlisted s).record_eq hrun hexec hf)

end

theorem singleStep_of_fault (hstep : step s = .next t) (hf : t.run = .faulted f) : singleStep s = (.fault f, t) := by
  simp only [singleStep, hstep, stepResponse, hrun, hf]

end

/-- Settles O12, by cases on where the step faulted: at the fetch from PC, at the decode, or in the instruction, whose record
`addr_of_exec_fault` and `value_of_exec_fault` read. -/
theorem faultsArePrecise : Obligations.FaultsArePrecise := by
  intro s t f hrun hstep hf
  have hresponse := singleStep_of_fault hrun hstep hf
  rw [step] at hstep
  rcases cycle_cases exec s with ⟨hstopped, _⟩ | ⟨_, hpc, hc⟩ | ⟨_, _, w, hfetch, ⟨e, hd, hc⟩ | ⟨i, hd, hc⟩⟩
  · exact absurd hrun hstopped
  · rw [hc] at hstep
    cases hstep
    cases hf
    exact ⟨rfl, (fetchFault_fits hpc).congr rfl rfl rfl, fun _ => rfl, nofun, hresponse⟩
  · rw [hc] at hstep
    cases hstep
    cases hf
    exact ⟨rfl, (decodeFault_fits (State.wordAtPc_eq_some hfetch) hd).congr rfl rfl rfl, nofun, nofun, hresponse⟩
  · rw [hc] at hstep
    have haddr := addr_of_exec_fault hrun hstep hf
    have hvalue := value_of_exec_fault hrun hstep hf
    obtain ⟨c, rfl, rfl, hexplains⟩ := exec_fault hrun hstep hf
    obtain rfl := encode_of_decode hd
    exact ⟨rfl, (hexplains.record_fits hd (State.wordAtPc_eq_some hfetch)).congr rfl rfl rfl,
      fun hkind => by simpa using haddr hkind, fun hkind => ⟨encode i, c.record_word _ _, hvalue hkind⟩, hresponse⟩

/-- A running state at which every access of memory and every nibble operand is out of range, with a stack of a given depth. -/
def outOfRangeState (sp : Fin 17) : State := { State.reset with v := Vector.replicate 16 0xFF#8, i := 0xFFFF#16, sp := sp }

theorem toNat_i_outOfRangeState (sp : Fin 17) : (outOfRangeState sp).i.toNat = 0xFFFF := rfl

theorem gt_reg_outOfRangeState (sp : Fin 17) (x : RegIdx) : 0xF < ((outOfRangeState sp).reg x).toNat := by
  rw [show (outOfRangeState sp).reg x = 0xFF#8 from Vector.getElem_replicate x.isLt]
  decide

/-- Settles O13: the kind is that of `faultKind_of_exec_fault`, and `outOfRangeState` raises each listed one, with an empty stack
for RET and a full one for CALL. -/
theorem instructionsRaiseTheListedFaults : Obligations.InstructionsRaiseTheListedFaults := by
  refine ⟨fun i s t f hrun hexec hf => faultKind_of_exec_fault hrun hexec hf, fun i k hk => ?_⟩
  have hi := toNat_i_outOfRangeState 0
  have hreg := gt_reg_outOfRangeState 0
  cases i
  case drw x y n =>
    rw [Instr.faultKind] at hk
    split at hk <;> cases hk
    next hn => exact ⟨outOfRangeState 0, _, _, rfl, exec_drw_of_gt hn (by omega), rfl, rfl⟩
  all_goals cases hk
  case sys nnn => exact ⟨outOfRangeState 0, _, _, rfl, rfl, rfl, rfl⟩
  case ret => exact ⟨outOfRangeState 0, _, _, rfl, exec_ret_empty rfl, rfl, rfl⟩
  case call nnn => exact ⟨outOfRangeState 16, _, _, rfl, exec_call_full nnn rfl, rfl, rfl⟩
  case ldBVx x => exact ⟨outOfRangeState 0, _, _, rfl, exec_ldBVx_of_gt (by omega), rfl, rfl⟩
  case ldMemVx x => exact ⟨outOfRangeState 0, _, _, rfl, exec_ldMemVx_of_gt (by omega), rfl, rfl⟩
  case ldVxMem x => exact ⟨outOfRangeState 0, _, _, rfl, exec_ldVxMem_of_gt (by omega), rfl, rfl⟩
  case skp x => exact ⟨_, _, _, rfl, exec_skp_of_gt (hreg x), rfl, rfl⟩
  case sknp x => exact ⟨_, _, _, rfl, exec_sknp_of_gt (hreg x), rfl, rfl⟩
  case ldFVx x => exact ⟨_, _, _, rfl, exec_ldFVx_of_gt (hreg x), rfl, rfl⟩

end Sys2Proof.Machine

/-! ## The host's events and readbacks (60_exceptions.md R305, R320 to R327) -/

namespace Sys2Proof.Machine

/-- Settles O53: `tick` writes the two timers, each decrement stopping at 0 (`toNat_tickTimer`). -/
theorem tickDecrementsBothTimers : Obligations.TickDecrementsBothTimers :=
  fun s => ⟨rfl, toNat_tickTimer s.dt, toNat_tickTimer s.st⟩

/-- Settles O54: a key event is one write of the latch, but for the key-down that `keyDown_ends_wait` gives. -/
theorem keyEventsWriteTheLatch : Obligations.KeyEventsWriteTheLatch := by
  refine ⟨fun k s hheld => ?keyDown, fun k s x hrun hup => ?endsWait, fun k s => ?keyUp⟩
  case keyDown =>
    rw [keyDown_eq_setKey hheld]
    exact ⟨rfl, fun j => s.getElem_key_setKey k j true⟩
  case endsWait =>
    rw [keyDown_ends_wait hrun hup]
    exact ⟨rfl, rfl, by rw [State.reg_setRun, State.reg_advance, State.reg_setReg_self, toNat_keyByte],
      fun j => s.getElem_key_setKey k j true⟩
  case keyUp => exact ⟨rfl, fun j => s.getElem_key_setKey k j false⟩

/-- Settles O55: `isSet` tests the grid, and the sound signal is ST against 0 (`soundActive_iff`). -/
theorem readbacks : Obligations.Readbacks := by
  refine ⟨fun s px py => ?inside, fun s px py hout => ?outside, fun s => ?sound, fun _ _ => rfl⟩
  case inside => exact dif_pos ⟨px.isLt, py.isLt⟩
  case outside => exact dif_neg (by omega)
  case sound => exact (soundActive_iff s).trans (not_congr BitVec.toNat_inj.symm)

/-! ### A latched fault (R305) -/

/-- A ROM that does not fit changes nothing (R352). -/
theorem load_of_gt {rom : List Byte} (h : 3584 < rom.length) (s : State) : load rom s = (.romTooLarge rom.length, s) :=
  if_pos h

/-- From s to t nothing changes but the timers and the keypad latch. -/
def TimersAndKeysOnly (s t : State) : Prop := t = { s with dt := t.dt, st := t.st, key := t.key }

theorem TimersAndKeysOnly.trans {s t u : State} (hst : TimersAndKeysOnly s t) (htu : TimersAndKeysOnly t u) :
    TimersAndKeysOnly s u := by
  unfold TimersAndKeysOnly at htu
  rw [hst] at htu
  exact htu

theorem TimersAndKeysOnly.run_eq {s t : State} (h : TimersAndKeysOnly s t) : t.run = s.run := by
  rw [h]

/-- An event on a faulted core, but for an accepted load, writes the timers and the keypad latch alone. -/
theorem Event.timersAndKeysOnly {s : State} {f : FaultRecord} (hrun : s.run = .faulted f) {e : Event}
    (hload : ∀ rom, e = .load rom → 3584 < rom.length) : TimersAndKeysOnly s (e.apply s) := by
  cases e with
  | cpuStep =>
    rw [Event.apply, (heldAndFaultedStepsChangeNothing.2 s f hrun).2]
    rfl
  | tick => rfl
  | keyDown k =>
    rw [Event.apply, keyDown_eq_setKey fun x hwait => by rw [hrun] at hwait; cases hwait]
    rfl
  | keyUp k => rfl
  | load rom =>
    rw [Event.apply, load_of_gt (hload rom rfl)]
    rfl

theorem runEvents_timersAndKeysOnly {f : FaultRecord} (es : List Event) {s : State} (hrun : s.run = .faulted f)
    (hloads : ∀ rom, Event.load rom ∈ es → 3584 < rom.length) : TimersAndKeysOnly s (runEvents es s) := by
  induction es generalizing s with
  | nil => rfl
  | cons e es ih =>
    have hfirst : TimersAndKeysOnly s (e.apply s) :=
      Event.timersAndKeysOnly hrun fun rom he => hloads rom (he ▸ List.mem_cons_self)
    exact hfirst.trans (ih (hfirst.run_eq.trans hrun) fun rom hmem => hloads rom (List.mem_cons_of_mem e hmem))

/-- Settles O57: Run is not among what the events change (`runEvents_timersAndKeysOnly`), so the step after them is one of a faulted
core, and an accepted load resets Run. -/
theorem onlyALoadClearsAFault : Obligations.OnlyALoadClearsAFault := by
  intro es s f hrun hloads
  have hframe := runEvents_timersAndKeysOnly es hrun hloads
  refine ⟨hframe, (heldAndFaultedStepsChangeNothing.2 _ f (hframe.run_eq.trans hrun)).2, fun rom hfits => ?_⟩
  rw [load_of_le hfits]
  rfl

end Sys2Proof.Machine

/-! ## Every step answers a next state (60_exceptions.md section 3) -/

namespace Sys2Proof.Machine

theorem FaultsOnlyWith.exists_next {i : Instr} {c : Trap} {s : State} (h : FaultsOnlyWith i c s) : ∃ t, exec i s = .next t := by
  rcases h with hraise | ⟨t, hnext, _⟩
  · exact ⟨_, hraise⟩
  · exact ⟨t, hnext⟩

/-- Every instruction answers a next state: a trap is one (R303), and no meaning has another outcome. -/
theorem exists_next_exec (i : Instr) (s : State) : ∃ t, exec i s = .next t := by
  cases i
  case ret =>
    rcases Nat.eq_zero_or_pos s.sp.val with hempty | hpos
    · exact ⟨_, exec_ret_empty hempty⟩
    · exact ⟨_, exec_ret_of_pos hpos⟩
  case call nnn =>
    rcases Nat.lt_or_ge s.sp.val 16 with hlt | hfull
    · exact ⟨_, exec_call_of_lt nnn hlt⟩
    · exact ⟨_, exec_call_full nnn (by omega)⟩
  case drw x y n =>
    by_cases hn : n = 0#4
    · exact ⟨_, exec_drw_of_fits (.inl hn)⟩
    · exact (faultsOnlyWith_memoryOutOfRange (i := .drw x y n) (if_neg hn) s).exists_next
  case ldBVx | ldMemVx | ldVxMem => exact (faultsOnlyWith_memoryOutOfRange rfl s).exists_next
  case skp | sknp | ldFVx => exact (faultsOnlyWith_operandOutOfRange rfl s).exists_next
  all_goals exact ⟨_, rfl⟩

/-- Settles O11, by cases on the cycle: it answers the state itself, a fault it takes, or the answer of one executed instruction
(`exists_next_exec`). -/
theorem everyStepAnswersANextState : Obligations.EveryStepAnswersANextState := by
  intro s
  rcases cycle_cases exec s with ⟨_, hheld⟩ | ⟨_, _, hfetch⟩ | ⟨_, _, w, _, ⟨_, _, hdecode⟩ | ⟨i, _, hexec⟩⟩
  · exact ⟨_, hheld⟩
  · exact ⟨_, hfetch⟩
  · exact ⟨_, hdecode⟩
  · obtain ⟨t, ht⟩ := exists_next_exec i s
    exact ⟨t, hexec.trans ht⟩

end Sys2Proof.Machine

/-! ## Reset and load (70_reset_and_hazards.md R350 to R353) -/

namespace Sys2Proof.Machine

/-- Settles O14: reset is even `Ready`, which `State.Inv.load` starts from. -/
theorem invHoldsAtReset : Obligations.InvHoldsAtReset := ready_reset.inv

/-- Settles O56: an accepted load is one write of the ROM over the reset memory, which is canonical and which the write leaves outside
the ROM's range (`load_of_le`, `read_of_memWrite`); a longer ROM is refused (`load_of_gt`). -/
theorem loadResetsAndCopiesOrRefuses : Obligations.LoadResetsAndCopiesOrRefuses := by
  refine ⟨fun rom s hlen => ?accepted, fun rom s hlen => load_of_gt hlen s⟩
  have hwf : State.reset.mem.wf = true := ready_reset.inv.mem_wf
  have hfits : 0x200 + rom.length ≤ 0x1000 := by omega
  rw [load_of_le hlen]
  refine ⟨rfl, rfl, Memory.wf_writeList hwf rom hfits, fun j hj => ?copied, fun a ha => ?kept⟩
  case copied => exact (Memory.read_writeList_add hwf hfits j).trans (List.getD_eq_getElem _ _ hj)
  case kept => exact read_of_memWrite (a := 0x200) hwf (memWrite_of_le _ hfits) (by omega)

theorem singleStep_of_illegalWord {s : State} {w : Word} (hrun : s.run = .running) (hpc : s.pc.toNat ≤ 0xFFE)
    (hw : s.mem.read s.pc.toNat ++ s.mem.read (s.pc.toNat + 1) = w) (hill : illegalWord Config.hardware.sysPolicy w = true) :
    (singleStep s).1 = .fault ⟨.decodeError, s.pc, some w, none, none⟩ := by
  obtain ⟨t, hstep, hfault⟩ := illegalWordFaults s w hrun hpc hw hill
  rw [singleStep_of_fault hrun hstep (congrArg State.run hfault)]

/-- Where memory lists nothing, the word at the program origin is 0000, a SYS word, illegal on this hardware (R107). -/
theorem singleStep_of_mem_nil {s : State} (hrun : s.run = .running) (hpc : s.pc = 0x200#16) (hmem : s.mem = []) :
    (singleStep s).1 = .fault ⟨.decodeError, 0x200#16, some 0x0000#16, none, none⟩ := by
  have hread {a : Nat} (ha : 80 ≤ a) : s.mem.read a = 0#8 := by
    rw [hmem]
    exact Memory.unlisted_of_le ha
  have hpcNat : s.pc.toNat = 0x200 := by rw [hpc]; rfl
  have hword : s.mem.read s.pc.toNat ++ s.mem.read (s.pc.toNat + 1) = 0x0000#16 := by
    rw [hread (by omega), hread (by omega)]
    rfl
  rw [singleStep_of_illegalWord hrun (by omega) hword rfl, hpc]

/-- Settles O58: memory lists nothing at reset, and the empty ROM adds nothing (`singleStep_of_mem_nil`). -/
theorem emptyRomFaultsAtOnce : Obligations.EmptyRomFaultsAtOnce := by
  refine ⟨fun s => ?loaded, singleStep_of_mem_nil rfl rfl rfl⟩
  rw [load_of_le (Nat.zero_le _)]
  exact ⟨rfl, singleStep_of_mem_nil rfl rfl rfl⟩

end Sys2Proof.Machine
